-- ==== Sys2Proof/Word.lean ====
section
/-! DEFINITION. The widths of the values on the ports (spec/10_state.md R15 to R17, spec/30_encoding.md
R27 and R31), and the records of a sub-block's input and output ports. Every value is unsigned and
bit 0 is the least significant (spec/00_scope.md R7, R8). -/

namespace Sys2Proof

/-- `reserved`, `data_page`: one bit (R27). -/
abbrev Bit := BitVec 1

/-- `priority`: three bits (R27). -/
abbrev Priority := BitVec 3

/-- `pdu_format`, `pdu_specific`, `source_address`: eight bits (R27). -/
abbrev Octet := BitVec 8

/-- The Parameter Group Number: 17 bits (R31; 90_conflicts.md C2). -/
abbrev Pgn := BitVec 17

/-- The packed identifier on the encoder's output: 29 bits (R16, R54). -/
abbrev CanId := BitVec 29

/-- The output ports of `j1939_identifier_decoder` (R15): the six primitive fields and the derived PGN
(90_conflicts.md C1). -/
structure DecoderOut where
  priority : Priority
  reserved : Bit
  dataPage : Bit
  pduFormat : Octet
  pduSpecific : Octet
  sourceAddress : Octet
  pgn : Pgn
  deriving DecidableEq, Repr, Inhabited

/-- The input ports of `j1939_identifier_encoder` (R16). Their widths are parameters (R5), so each value is
a natural number, which R5 calls the limit of every width. -/
structure EncoderIn where
  priority : Nat
  pgn : Nat
  sourceAddress : Nat
  reserved : Nat
  deriving DecidableEq, Repr, Inhabited

/-- The input ports of `pgn_derive_mux` (R17). -/
structure MuxIn where
  dataPage : Bit
  pduFormat : Octet
  pduSpecific : Octet
  deriving DecidableEq, Repr, Inhabited

end Sys2Proof
end

