-- ==== Sys2Proof/Config.lean ====
section
/-! DEFINITION. What an implementation fixes (spec/00_scope.md R5) and the values the spec leaves open
(spec/70_reset_and_hazards.md R65, R67). -/

namespace Sys2Proof

/-- The widths of the input ports: parameters of the hardware (R5; 92_eei_decisions.md D3). -/
structure Config.Widths where
  wId : Nat
  wPrio : Nat
  wPgn : Nat
  wSa : Nat
  wRsv : Nat
  deriving DecidableEq, Repr

/-- Every width is at or above its minimum; R5 and D3 admit no other. -/
abbrev Config.Widths.Admissible (c : Config.Widths) : Prop :=
  29 ≤ c.wId ∧ 3 ≤ c.wPrio ∧ 17 ≤ c.wPgn ∧ 8 ≤ c.wSa ∧ 1 ≤ c.wRsv

/-- The spec's defaults, 32 bits each (R5). They are the widths of the pins that `step` reads: DESIGN CHOICE,
safe (log entry 10). -/
def Config.widths : Config.Widths :=
  { wId := 32, wPrio := 32, wPgn := 32, wSa := 32, wRsv := 32 }

/-- `W_OUT`, the width of the encoder's output port (R5; D16). -/
def Config.wOut : Nat := 29

/-- `T_PD`, the time an input must be stable before the outputs have settled. OPEN (R5, R67; D12), so it is
an uninterpreted constant. Its unit is whatever unit `Stimulus.wait` counts in: DESIGN CHOICE, safe (log entry 4). -/
opaque Config.tPD : Nat

/-- What the decoder's seven output ports show at a sampling instant while they are not settled: a FREE
VALUE (R65, R67). That it depends on the instant alone is a DESIGN CHOICE, safe (log entry 3). -/
opaque Config.freeDecoderOut : Nat → DecoderOut

/-- What the encoder's `can_id` port shows at a sampling instant while it is not settled: a FREE VALUE. -/
opaque Config.freeCanId : Nat → CanId

/-- What the standalone mux's `pgn` port shows at a sampling instant while it is not settled: a FREE VALUE. -/
opaque Config.freePgn : Nat → Pgn

/-- The internal `pdu2_sel` of the standalone mux while it is not settled: a FREE VALUE (R65; log entry 16). -/
opaque Config.freeMuxSel : Nat → Bool

/-- The internal `pdu2_sel` of the decoder's mux while it is not settled: a FREE VALUE (R65; log entry 16). -/
opaque Config.freeDecoderSel : Nat → Bool

end Sys2Proof
end

