-- ==== Sys2Proof/Machine/Operands.lean ====
section
/-! DEFINITION. Operand assembly: the bit ranges that the sub-blocks read (spec/30_encoding.md R27, R28, R32, R40). -/

namespace Sys2Proof.Machine

/-- `v[lo+w-1 : lo]` (R9): the bits of `v` from `lo` up, `w` of them; a bit above the width of `v` reads as 0. -/
def bits (w lo v : Nat) : BitVec w := BitVec.ofNat w (v >>> lo)

/-! ## Fields of an identifier (R27, R28) -/

def idPriority (canId : Nat) : Priority := bits 3 26 canId
def idReserved (canId : Nat) : Bit := bits 1 25 canId
def idDataPage (canId : Nat) : Bit := bits 1 24 canId
def idPduFormat (canId : Nat) : Octet := bits 8 16 canId
def idPduSpecific (canId : Nat) : Octet := bits 8 8 canId
def idSourceAddress (canId : Nat) : Octet := bits 8 0 canId

/-- What the decoder wires to its own mux: `can_id[24]`, `can_id[23:16]`, `can_id[15:8]` (R17, R46). -/
def idMuxIn (canId : Nat) : MuxIn :=
  { dataPage := idDataPage canId, pduFormat := idPduFormat canId, pduSpecific := idPduSpecific canId }

/-! ## Parts of the encoder's `pgn` input (R32): no branch, and bits 17 and above are not read -/

def pgnDataPage (pgn : Nat) : Bit := bits 1 16 pgn
def pgnPduFormat (pgn : Nat) : Octet := bits 8 8 pgn
def pgnPduSpecific (pgn : Nat) : Octet := bits 8 0 pgn

/-! ## Masks of the encoder's other inputs (R51, step 1) -/

def maskPriority (priority : Nat) : Priority := bits 3 0 priority
def maskReserved (reserved : Nat) : Bit := bits 1 0 reserved
def maskSourceAddress (sourceAddress : Nat) : Octet := bits 8 0 sourceAddress

/-! ## Values carried by ports of given widths (R5) -/

/-- What arrives of an identifier on a `can_id` input port of width `W_ID`. -/
def throughIdPort (c : Config.Widths) (canId : Nat) : Nat := canId % 2 ^ c.wId

/-- What arrives of the encoder's inputs on ports of the widths `c`. -/
def throughEncoderPorts (c : Config.Widths) (x : EncoderIn) : EncoderIn :=
  { priority := x.priority % 2 ^ c.wPrio, pgn := x.pgn % 2 ^ c.wPgn,
    sourceAddress := x.sourceAddress % 2 ^ c.wSa, reserved := x.reserved % 2 ^ c.wRsv }

end Sys2Proof.Machine
end

