-- ==== Sys2Proof/Machine/Flags.lean ====
section
/-! DEFINITION. The block has no flags (spec/10_state.md R13). The one condition it computes is the internal select signal
`pdu2_sel` (spec/40_pgn_derive_mux.md R41), which is not a port (spec/10_state.md R17). -/

namespace Sys2Proof.Machine

/-- `pdu2_sel`: whether `pdu_format` is 240 or above. 240 itself is PDU2 (R41). -/
def pdu2Sel (pduFormat : Octet) : Bool := decide (240 ≤ pduFormat.toNat)

end Sys2Proof.Machine
end

