-- ==== Sys2Proof/Syntax.lean ====
section
/-! DEFINITION. The operations of spec/opcode_table.json, and the two forms in which the outside presents one:
a word on a sub-block's pins, or a call in the notation of spec/30_encoding.md R38. -/

namespace Sys2Proof

/-- The three sub-blocks (R1). There is no operation-select input (R34): which one an operation uses is where
its word is presented. -/
inductive SubBlock where
  | decoder
  | encoder
  | mux
  deriving DecidableEq, Repr

/-- One constructor per row of spec/opcode_table.json; the operands are the values driven on the sub-block's
input ports. Inputs whose width is a parameter are natural numbers (R5; log entry 10). -/
inductive Instr where
  /-- `DECODE` (R46). -/
  | decode (canId : Nat)
  /-- `ENCODE` (R51). -/
  | encode (priority pgn sourceAddress reserved : Nat)
  /-- `PGN_DERIVE.PDU2` (R43). -/
  | pgnDerivePdu2 (dataPage : Bit) (pduFormat pduSpecific : Octet)
  /-- `PGN_DERIVE.PDU1` (R42). -/
  | pgnDerivePdu1 (dataPage : Bit) (pduFormat pduSpecific : Octet)
  deriving DecidableEq, Repr

/-- The sub-block whose input ports an operation drives (R34). -/
def Instr.block : Instr → SubBlock
  | .decode _ => .decoder
  | .encode _ _ _ _ => .encoder
  | .pgnDerivePdu2 _ _ _ => .mux
  | .pgnDerivePdu1 _ _ _ => .mux

/-- The three-operand form of `ENCODE` (R39): a second spelling of the four-operand form, with the `reserved`
input tied to 0. -/
def Instr.encode3 (priority pgn sourceAddress : Nat) : Instr :=
  .encode priority pgn sourceAddress 0

/-- What may be found on an input pin. Only 0 and 1 are in the domain of the hardware (R18; D18). -/
inductive Pin where
  | zero
  | one
  /-- An unknown level (X). -/
  | unknown
  /-- Nothing drives the pin. -/
  | undriven
  /-- High impedance (Z). -/
  | highZ
  deriving DecidableEq, Repr

/-- A call in the notation of R38, with integer arguments as in the source's interface. `reserved` is absent in
the three-operand form (R39). -/
inductive Call where
  | decode (canId : Int)
  | encode (priority pgn sourceAddress : Int) (reserved : Option Int)
  | pgnDerive (dataPage pduFormat pduSpecific : Int)
  deriving DecidableEq, Repr

/-- The integers a call is given. -/
def Call.arguments : Call → List Int
  | .decode canId => [canId]
  | .encode priority pgn sourceAddress reserved => [priority, pgn, sourceAddress] ++ reserved.toList
  | .pgnDerive dataPage pduFormat pduSpecific => [dataPage, pduFormat, pduSpecific]

/-- How the outside presents an operation. A word lists a sub-block's pins, bit 0 first (log entry 8). A pin that the list
leaves out is not driven. -/
inductive Request where
  | pins (block : SubBlock) (word : List Pin)
  | call (c : Call)
  deriving DecidableEq, Repr

/-- Why a request is not an operation of the hardware. All of these lie outside the domain of the ports. -/
inductive Reject where
  /-- A negative integer (R18; D8). -/
  | negativeInput
  /-- An unknown, undriven or high-impedance pin, a pin that the word leaves out among them (R18; D18). -/
  | unknownPin
  /-- A value with a bit that none of the sub-block's ports has a wire for: DESIGN CHOICE, safe (log entry 11). -/
  | wordTooWide
  deriving DecidableEq, Repr

end Sys2Proof
end

