-- ==== Sys2Proof/WellFormed.lean ====
section
/-! DEFINITION. Which operations a part with input ports of given widths can be given: every operand fits its
port (spec/10_state.md R15 to R17), and a row of `pgn_derive_mux` holds exactly the `pdu_format` values that
select it (spec/30_encoding.md R33, R34). -/

namespace Sys2Proof

/-- `i` is an operation of a part whose input ports have the widths `c`. -/
def WellFormed (c : Config.Widths) : Instr → Bool
  | .decode canId => decide (canId < 2 ^ c.wId)
  | .encode priority pgn sourceAddress reserved =>
      decide (priority < 2 ^ c.wPrio) && decide (pgn < 2 ^ c.wPgn) &&
        decide (sourceAddress < 2 ^ c.wSa) && decide (reserved < 2 ^ c.wRsv)
  | .pgnDerivePdu2 _ pduFormat _ => decide (240 ≤ pduFormat.toNat)
  | .pgnDerivePdu1 _ pduFormat _ => decide (pduFormat.toNat < 240)

end Sys2Proof
end

