-- ==== Sys2Proof/Decode.lean ====
section
/-! DEFINITION. From what the outside presents to an operation, and back. A word on a sub-block's pins is the
concatenation of its input ports, in the order in which the spec writes the bundle, the first most significant
(spec/30_encoding.md R34, spec/00_scope.md R9): DESIGN CHOICE, safe for every statement about a port's value (log entry 8). -/

namespace Sys2Proof

/-! ## Rows of the opcode table -/

/-- A row of spec/opcode_table.json: the words `n` with `n & mask = pattern` on the pins of `block`. -/
structure TableRow where
  mnemonic : String
  block : SubBlock
  mask : Nat
  pattern : Nat
  deriving DecidableEq, Repr

/-- R34, in the order in which the rows are tried: `PGN_DERIVE.PDU2` before `PGN_DERIVE.PDU1`. -/
def opcodeTable : List TableRow :=
  [ { mnemonic := "DECODE", block := .decoder, mask := 0, pattern := 0 },
    { mnemonic := "ENCODE", block := .encoder, mask := 0, pattern := 0 },
    { mnemonic := "PGN_DERIVE.PDU2", block := .mux, mask := 0x0F000, pattern := 0x0F000 },
    { mnemonic := "PGN_DERIVE.PDU1", block := .mux, mask := 0, pattern := 0 } ]

def TableRow.selects (r : TableRow) (b : SubBlock) (n : Nat) : Bool :=
  decide (r.block = b) && (n &&& r.mask == r.pattern)

/-- The mnemonic of the first row that selects a word. -/
def selectedMnemonic (b : SubBlock) (n : Nat) : Option String :=
  (opcodeTable.find? fun r => r.selects b n).map (·.mnemonic)

/-- The mnemonic of an operation's row. -/
def mnemonicOf : Instr → String
  | .decode _ => "DECODE"
  | .encode _ _ _ _ => "ENCODE"
  | .pgnDerivePdu2 _ _ _ => "PGN_DERIVE.PDU2"
  | .pgnDerivePdu1 _ _ _ => "PGN_DERIVE.PDU1"

/-! ## Words -/

/-- How many input pins a sub-block has (R15 to R17). -/
def bundleWidth (c : Config.Widths) : SubBlock → Nat
  | .decoder => c.wId
  | .encoder => c.wPrio + (c.wPgn + (c.wSa + c.wRsv))
  | .mux => 17

/-- The bundle `{data_page, pdu_format, pdu_specific}` as an operation of the mux: the row with mask `0x0F000` and
match `0x0F000` is tried first (R33, R34). -/
def decodeMuxBundle (n : Nat) : Instr :=
  if n &&& 0x0F000 = 0x0F000 then
    .pgnDerivePdu2 (BitVec.ofNat 1 (n >>> 16)) (BitVec.ofNat 8 (n >>> 8)) (BitVec.ofNat 8 n)
  else
    .pgnDerivePdu1 (BitVec.ofNat 1 (n >>> 16)) (BitVec.ofNat 8 (n >>> 8)) (BitVec.ofNat 8 n)

/-- The bundle `{priority, pgn, source_address, reserved}` as an operation of the encoder. -/
def decodeEncoderBundle (c : Config.Widths) (n : Nat) : Instr :=
  .encode (n / 2 ^ (c.wPgn + (c.wSa + c.wRsv))) (n / 2 ^ (c.wSa + c.wRsv) % 2 ^ c.wPgn)
    (n / 2 ^ c.wRsv % 2 ^ c.wSa) (n % 2 ^ c.wRsv)

/-- The operation that a number on a sub-block's pins stands for. Every number that fits the pins is one (R35); a
number with a bit beyond the pins is rejected by name. -/
def decodeBundle (c : Config.Widths) (b : SubBlock) (n : Nat) : Except Reject Instr :=
  if n < 2 ^ bundleWidth c b then
    match b with
    | .decoder => .ok (.decode n)
    | .encoder => .ok (decodeEncoderBundle c n)
    | .mux => .ok (decodeMuxBundle n)
  else .error .wordTooWide

/-- The sub-block of an operation, and the number on its pins. -/
def encodeBundle (c : Config.Widths) : Instr → SubBlock × Nat
  | .decode canId => (.decoder, canId)
  | .encode priority pgn sourceAddress reserved =>
      (.encoder, ((priority * 2 ^ c.wPgn + pgn) * 2 ^ c.wSa + sourceAddress) * 2 ^ c.wRsv + reserved)
  | .pgnDerivePdu2 dataPage pduFormat pduSpecific =>
      (.mux, (dataPage ++ pduFormat ++ pduSpecific).toNat)
  | .pgnDerivePdu1 dataPage pduFormat pduSpecific =>
      (.mux, (dataPage ++ pduFormat ++ pduSpecific).toNat)

/-! ## Pins -/

/-- The level of a pin, where it has one. -/
def Pin.level : Pin → Option Bool
  | .zero => some false
  | .one => some true
  | .unknown => none
  | .undriven => none
  | .highZ => none

def Pin.ofLevel (b : Bool) : Pin := if b then .one else .zero

/-- The number on the pins of a list, bit 0 first; none if a pin of the list has no level. That the list leaves no pin of a
sub-block out is `decodeRequest`'s check. -/
def pinsValue : List Pin → Option Nat
  | [] => some 0
  | p :: ps =>
    match p.level, pinsValue ps with
    | some b, some n => some (b.toNat + 2 * n)
    | _, _ => none

/-- The low `k` bits of `n` on `k` pins, bit 0 first. -/
def pinsOf : (k n : Nat) → List Pin
  | 0, _ => []
  | k + 1, n => Pin.ofLevel (n.testBit 0) :: pinsOf k (n / 2)

/-! ## Calls -/

/-- An integer on an unsigned port: a negative one is refused (R18; D8). -/
def natural : Int → Except Reject Nat
  | .ofNat n => .ok n
  | .negSucc _ => .error .negativeInput

/-- The operation that a call stands for. `decode` and `encode` take integers of any size (R5, R47, R52); the ports of
`pgn_derive` have 1, 8 and 8 wires (R17). -/
def decodeCall (c : Config.Widths) : Call → Except Reject Instr
  | .decode canId => do
    let x ← natural canId
    return .decode x
  | .encode priority pgn sourceAddress reserved => do
    let p ← natural priority
    let g ← natural pgn
    let a ← natural sourceAddress
    match reserved with
    | none => return .encode3 p g a
    | some reserved =>
      let r ← natural reserved
      return .encode p g a r
  | .pgnDerive dataPage pduFormat pduSpecific => do
    let d ← natural dataPage
    let f ← natural pduFormat
    let s ← natural pduSpecific
    if d < 2 ∧ f < 256 ∧ s < 256 then
      decodeBundle c .mux (d * 2 ^ 16 + f * 2 ^ 8 + s)
    else .error .wordTooWide

/-! ## Requests -/

/-- The decoder: from what is presented to an operation, total, rejecting by name. Every pin of the sub-block must be
driven (R18; D18): a word that leaves one out is refused like a word with an unknown one. A word may go on beyond the
pins, as one padded to whole bytes does, if it carries zeros there (log entry 11). -/
def decodeRequest (c : Config.Widths) : Request → Except Reject Instr
  | .pins b word =>
    if word.length < bundleWidth c b then .error .unknownPin
    else
      match pinsValue word with
      | some n => decodeBundle c b n
      | none => .error .unknownPin
  | .call k => decodeCall c k

/-- The encoder: the sub-block and the pins that present an operation. -/
def encode (c : Config.Widths) (i : Instr) : Request :=
  .pins (encodeBundle c i).1 (pinsOf (bundleWidth c (encodeBundle c i).1) (encodeBundle c i).2)

/-! ## The host's numbering of a word -/

/-- Which sub-block's pins a word of `nbits` bits is presented on. The hardware has no such selection (R34); the table's
rows have 17 bits (mux) and 29 bits (decoder), and the encoder's input bundle is wider: DESIGN CHOICE, safe (log entry 9). -/
def tableBlock (nbits : Nat) : SubBlock :=
  if nbits ≤ 24 then .mux else if nbits ≤ 32 then .decoder else .encoder

/-- The word `w` of `nbits` bits on the pins of its sub-block, every pin above `nbits` driven with 0. -/
def tableRequest (nbits w : Nat) : Request :=
  .pins (tableBlock nbits)
    (pinsOf (max nbits (bundleWidth Config.widths (tableBlock nbits))) (w % 2 ^ nbits))

/-- The operation the decoder reads from a word of the opcode table. -/
def decodeTableWord (nbits w : Nat) : Option Instr :=
  (decodeRequest Config.widths (tableRequest nbits w)).toOption

end Sys2Proof
end

