-- ==== Sys2Proof/Machine/State.lean ====
section
/-! DEFINITION. The state. The block holds no register, flag, memory or program counter (spec/10_state.md R11 to
R13); what the spec says exists is the ports, so State holds what is on them. -/

namespace Sys2Proof.Machine

/-- What the output wires of a sub-block carry. -/
inductive Net (α : Type) where
  /-- The inputs have not been driven since power-up: the outputs are unspecified (R65; D9). -/
  | undriven
  /-- An input changed, and the inputs have been stable for `elapsed` since: the outputs may show anything (R67). All of a
  sub-block's outputs settle together: DESIGN CHOICE, safe (log entry 17). -/
  | settling (elapsed : Nat)
  /-- The inputs have been stable for `T_PD`: the outputs show this value (R14). -/
  | settled (value : α)
  deriving DecidableEq, Repr

/-- A sub-block's ports: the values on its inputs, which stay until driven anew (DESIGN CHOICE, unsafe, log entry 15), and
its output wires. -/
structure Ports (ι α : Type) where
  inp : ι
  net : Net α
  deriving DecidableEq, Repr

/-- When the outside samples the outputs of an operation it presents. -/
inductive Timing where
  /-- Once they have settled. -/
  | settled
  /-- Before the inputs have been stable for `T_PD` (R67). -/
  | early
  deriving DecidableEq, Repr

/-- What the outside does next. The hardware has no stream of operations: connected logic chooses (R12): DESIGN CHOICE,
safe (log entry 1). -/
inductive Stimulus where
  | present (r : Request) (t : Timing)
  /-- Every input stays as it is for a time. -/
  | wait (time : Nat)
  deriving DecidableEq, Repr

/-- The ports of the three sub-blocks, and two fields of the model's own: what the outside does next, oldest first, and
the index of the present sampling instant, on which the free values depend (log entries 1 and 3). -/
structure State where
  decoder : Ports Nat DecoderOut
  encoder : Ports EncoderIn CanId
  mux : Ports MuxIn Pgn
  stimuli : List Stimulus
  instant : Nat
  deriving DecidableEq, Repr

/-- The block raises nothing: no input of any sub-block faults (R57), so there is no reason to fault. -/
inductive Fault where
  deriving DecidableEq, Repr

inductive Refusal where
  /-- Raised by an arm of `exec` that gives an operation no meaning; no arm does. Safe. -/
  | notModelled (mnemonic : String)
  /-- Raised by `step` on a request outside the domain of the ports (R18; D8, D18). Safe: nothing follows from it. -/
  | rejected (why : Reject)
  deriving DecidableEq, Repr

/-- After power-up. The spec gives no reset (R65; D9): the inputs are not driven, and the outputs are therefore free. The
value 0 recorded for an undriven input is the model's: DESIGN CHOICE, unsafe (log entry 2). -/
def State.reset : State :=
  { decoder := { inp := 0, net := .undriven },
    encoder := { inp := { priority := 0, pgn := 0, sourceAddress := 0, reserved := 0 }, net := .undriven },
    mux := { inp := { dataPage := 0, pduFormat := 0, pduSpecific := 0 }, net := .undriven },
    stimuli := [],
    instant := 0 }

end Sys2Proof.Machine
end

