-- ==== Sys2Proof/Machine/Ops.lean ====
section
/-! DEFINITION. The shared operations: packing the identifier, and driving, settling and sampling ports.
The spec describes no exception, trap or return (spec/60_exceptions.md R57, R61), so there is no operation for one. -/

namespace Sys2Proof.Machine

/-! ## Packing -/

/-- `{priority, reserved, data_page, pdu_format, pdu_specific, source_address}` (R30): 29 bits. -/
def packId (p : Priority) (r : Bit) (dp : Bit) (pf ps sa : Octet) : CanId :=
  p ++ r ++ dp ++ pf ++ ps ++ sa

/-- The encoder's output carried in a word of `w` bits: bits 29 and above are 0 (R54; D16). -/
def carriedIn (w : Nat) (canId : CanId) : BitVec w := canId.setWidth w

/-! ## One sub-block's ports -/

/-- Drive the inputs with `x`, leave them stable for `T_PD`, and have the outputs show the function `f` of them (R14, R67).
No time passes for another sub-block: DESIGN CHOICE, safe (log entry 5). All inputs are driven together: DESIGN CHOICE,
safe (log entry 6). -/
def Ports.operate {ι α : Type} (f : ι → α) (x : ι) (_ : Ports ι α) : Ports ι α :=
  { inp := x, net := .settled (f x) }

/-- Drive the inputs with `x` and look at once. If that changes an input, the outputs have yet to settle (R67); driving
the values already there changes nothing (R22): DEDUCED, unsafe (log entry 7). A changed input leaves the outputs to settle
at elapsed time 0 without asking whether `T_PD` is 0, which the spec does not exclude (R5), so a sample taken at the change
is free for every `T_PD`, and 0 too waits for a `wait`: DESIGN CHOICE, safe (log entry 19). -/
def Ports.change {ι α : Type} [DecidableEq ι] (x : ι) (b : Ports ι α) : Ports ι α :=
  match b.net with
  | .undriven => { inp := x, net := .settling 0 }
  | .settling _ => if x = b.inp then b else { inp := x, net := .settling 0 }
  | .settled _ => if x = b.inp then b else { inp := x, net := .settling 0 }

/-- The inputs stay stable for `t` more: once they have been for `T_PD`, the outputs show `f` of them (R67). -/
def Ports.wait {ι α : Type} (f : ι → α) (t : Nat) (b : Ports ι α) : Ports ι α :=
  match b.net with
  | .undriven => b
  | .settling e => if Config.tPD ≤ e + t then { b with net := .settled (f b.inp) } else { b with net := .settling (e + t) }
  | .settled _ => b

/-- What a sample of the outputs shows, where `free` is what they show while they are not settled (R65, R67). -/
def Net.sample {α : Type} (free : α) : Net α → α
  | .undriven => free
  | .settling _ => free
  | .settled v => v

/-! ## The state -/

/-- The next sampling instant. -/
def State.tick (s : State) : State := { s with instant := s.instant + 1 }

def State.mapDecoder (g : Ports Nat DecoderOut → Ports Nat DecoderOut) (s : State) : State :=
  { s with decoder := g s.decoder }

def State.mapEncoder (g : Ports EncoderIn CanId → Ports EncoderIn CanId) (s : State) : State :=
  { s with encoder := g s.encoder }

def State.mapMux (g : Ports MuxIn Pgn → Ports MuxIn Pgn) (s : State) : State :=
  { s with mux := g s.mux }

/-- The outside has done the first thing it had to do. -/
def State.advance (s : State) : State := { s with stimuli := s.stimuli.tail }

/-! ## Sampling. Reading an output has no side effect (R22) -/

/-- The decoder's seven output ports at this instant. -/
def State.decoderOut (s : State) : DecoderOut := s.decoder.net.sample (Config.freeDecoderOut s.instant)

/-- The encoder's `can_id` output at this instant. -/
def State.encoderCanId (s : State) : CanId := s.encoder.net.sample (Config.freeCanId s.instant)

/-- The standalone mux's `pgn` output at this instant. -/
def State.muxPgn (s : State) : Pgn := s.mux.net.sample (Config.freePgn s.instant)

/-- The internal `pdu2_sel` of the standalone mux at this instant (R41, R65). -/
def State.muxPdu2Sel (s : State) : Bool :=
  match s.mux.net with
  | .undriven => Config.freeMuxSel s.instant
  | .settling _ => Config.freeMuxSel s.instant
  | .settled _ => pdu2Sel s.mux.inp.pduFormat

/-- The internal `pdu2_sel` of the decoder's own mux at this instant (R41, R46, R65). -/
def State.decoderPdu2Sel (s : State) : Bool :=
  match s.decoder.net with
  | .undriven => Config.freeDecoderSel s.instant
  | .settling _ => Config.freeDecoderSel s.instant
  | .settled _ => pdu2Sel (idPduFormat s.decoder.inp)

end Sys2Proof.Machine
end

