-- ==== Sys2Proof/Machine/PgnDerive.lean ====
section
/-! DEFINITION. `pgn_derive_mux` (spec/40_pgn_derive_mux.md) and the meanings of `PGN_DERIVE.PDU2` and
`PGN_DERIVE.PDU1`. -/

namespace Sys2Proof.Machine

/-- The PDU1 branch (R42): `pdu_specific` is not read, and bits 7..0 are 0. -/
def pgnPdu1 (x : MuxIn) : Pgn := x.dataPage ++ x.pduFormat ++ (0 : Octet)

/-- The PDU2 branch (R43): all 17 input bits. -/
def pgnPdu2 (x : MuxIn) : Pgn := x.dataPage ++ x.pduFormat ++ x.pduSpecific

/-- The output of the mux (R44). -/
def muxFn (x : MuxIn) : Pgn := if pdu2Sel x.pduFormat then pgnPdu2 x else pgnPdu1 x

/-- An operation of the standalone mux. The hardware selects the branch by `pdu_format` alone (R33, R34), so an operand
that belongs to the other row takes the other branch: DEDUCED, safe (log entry 13). -/
def operateMux (x : MuxIn) (s : State) : State := (s.mapMux (Ports.operate muxFn x)).tick

/-- `PGN_DERIVE.PDU2` (R43). -/
def execPgnDerivePdu2 (dataPage : Bit) (pduFormat pduSpecific : Octet) (s : State) :
    Host.Outcome State Fault Refusal :=
  .next (operateMux { dataPage := dataPage, pduFormat := pduFormat, pduSpecific := pduSpecific } s)

/-- `PGN_DERIVE.PDU1` (R42). -/
def execPgnDerivePdu1 (dataPage : Bit) (pduFormat pduSpecific : Octet) (s : State) :
    Host.Outcome State Fault Refusal :=
  .next (operateMux { dataPage := dataPage, pduFormat := pduFormat, pduSpecific := pduSpecific } s)

end Sys2Proof.Machine
end

