-- ==== Sys2Proof/Machine/Decoder.lean ====
section
/-! DEFINITION. `j1939_identifier_decoder` (spec/41_decoder.md) and the meaning of `DECODE`. -/

namespace Sys2Proof.Machine

/-- The seven outputs as a function of `can_id` (R46): six bit ranges, and the PGN from the decoder's own mux. -/
def decoderFn (canId : Nat) : DecoderOut :=
  { priority := idPriority canId,
    reserved := idReserved canId,
    dataPage := idDataPage canId,
    pduFormat := idPduFormat canId,
    pduSpecific := idPduSpecific canId,
    sourceAddress := idSourceAddress canId,
    pgn := muxFn (idMuxIn canId) }

/-- `DECODE` (R46). -/
def execDecode (canId : Nat) (s : State) : Host.Outcome State Fault Refusal :=
  .next (s.mapDecoder (Ports.operate decoderFn canId)).tick

end Sys2Proof.Machine
end

