-- ==== Sys2Proof/Machine/Encoder.lean ====
section
/-! DEFINITION. `j1939_identifier_encoder` (spec/42_encoder.md) and the meaning of `ENCODE`. -/

namespace Sys2Proof.Machine

/-- The packed identifier as a function of the four inputs (R51): mask, split `pgn` with no branch (R53), reassemble. -/
def encoderFn (x : EncoderIn) : CanId :=
  packId (maskPriority x.priority) (maskReserved x.reserved) (pgnDataPage x.pgn) (pgnPduFormat x.pgn)
    (pgnPduSpecific x.pgn) (maskSourceAddress x.sourceAddress)

/-- `ENCODE` (R51). -/
def execEncode (priority pgn sourceAddress reserved : Nat) (s : State) : Host.Outcome State Fault Refusal :=
  .next (s.mapEncoder (Ports.operate encoderFn
    { priority := priority, pgn := pgn, sourceAddress := sourceAddress, reserved := reserved })).tick

end Sys2Proof.Machine
end

