-- ==== Sys2Proof/Machine/Dispatch.lean ====
section
/-! DEFINITION. One arm per row of spec/opcode_table.json. -/

namespace Sys2Proof.Machine

def exec (i : Instr) (s : State) : Host.Outcome State Fault Refusal :=
  match i with
  | .decode canId => Sys2Proof.Machine.execDecode canId s
  | .encode priority pgn sourceAddress reserved => Sys2Proof.Machine.execEncode priority pgn sourceAddress reserved s
  | .pgnDerivePdu2 dataPage pduFormat pduSpecific => Sys2Proof.Machine.execPgnDerivePdu2 dataPage pduFormat pduSpecific s
  | .pgnDerivePdu1 dataPage pduFormat pduSpecific => Sys2Proof.Machine.execPgnDerivePdu1 dataPage pduFormat pduSpecific s

end Sys2Proof.Machine
end

