-- ==== Sys2Proof/Machine/Settling.lean ====
section
/-! DEFINITION. What happens outside an operation of the opcode table: inputs that change and are looked at before they
have been stable for `T_PD`, and inputs that stay as they are (spec/70_reset_and_hazards.md R67). -/

namespace Sys2Proof.Machine

/-- Drive the inputs of an operation's sub-block with its operands, and look before they have settled. -/
def presentEarly (i : Instr) (s : State) : State :=
  match i with
  | .decode canId => (s.mapDecoder (Ports.change canId)).tick
  | .encode priority pgn sourceAddress reserved =>
      (s.mapEncoder (Ports.change
        { priority := priority, pgn := pgn, sourceAddress := sourceAddress, reserved := reserved })).tick
  | .pgnDerivePdu2 dataPage pduFormat pduSpecific =>
      (s.mapMux (Ports.change
        { dataPage := dataPage, pduFormat := pduFormat, pduSpecific := pduSpecific })).tick
  | .pgnDerivePdu1 dataPage pduFormat pduSpecific =>
      (s.mapMux (Ports.change
        { dataPage := dataPage, pduFormat := pduFormat, pduSpecific := pduSpecific })).tick

/-- Every input stays as it is for a time `t`. -/
def State.wait (t : Nat) (s : State) : State :=
  (((s.mapDecoder (Ports.wait decoderFn t)).mapEncoder (Ports.wait encoderFn t)).mapMux (Ports.wait muxFn t)).tick

end Sys2Proof.Machine
end

