-- ==== Sys2Proof/Machine/Step.lean ====
section
/-! DEFINITION. One step: the next thing the outside does. The hardware fetches nothing (spec/10_state.md R12); the step
takes the head of `stimuli` (log entry 1). -/

namespace Sys2Proof.Machine

/-- With nothing to do, the inputs stay as they are and only the sampling instant moves on (DESIGN CHOICE, safe, log entry 18). A request outside the domain of
the ports is refused by name (R18). -/
def step (s : State) : Host.Outcome State Fault Refusal :=
  match s.stimuli with
  | [] => .next s.tick
  | .wait t :: _ => .next (s.advance.wait t)
  | .present r timing :: _ =>
    match decodeRequest Config.widths r with
    | .error why => .refused (.rejected why)
    | .ok i =>
      match timing with
      | .settled => exec i s.advance
      | .early => .next (presentEarly i s.advance)

/-- The word `w` of `nbits` bits is what the outside presents next, to be sampled settled (log entry 9). -/
def State.withFetchWord (s : State) (nbits w : Nat) : State :=
  { s with stimuli := .present (tableRequest nbits w) .settled :: s.stimuli }

end Sys2Proof.Machine
end

