-- ==== Sys2Proof/Safety.lean ====
section
/-! DEFINITION. What a run may rely on: whenever a sub-block's outputs are settled, they are the function of the values
now on its own inputs, and nothing else (spec/10_state.md R14, spec/70_reset_and_hazards.md R65). -/

namespace Sys2Proof.Machine

/-- If the wires are settled, they carry `f` of the inputs. -/
def Ports.Driven {ι α : Type} [DecidableEq α] (f : ι → α) (b : Ports ι α) : Bool :=
  match b.net with
  | .undriven => true
  | .settling _ => true
  | .settled v => decide (v = f b.inp)

/-- Every settled output is the function of its sub-block's present inputs. -/
def State.Driven (s : State) : Bool :=
  s.decoder.Driven decoderFn && s.encoder.Driven encoderFn && s.mux.Driven muxFn

/-- The output ports of the sub-block that `i` drives show, at this instant, the function of `i`'s operands that its rule
gives (R46, R51, R44). -/
def State.Shows (s : State) : Instr → Prop
  | .decode canId => s.decoderOut = decoderFn canId
  | .encode priority pgn sourceAddress reserved =>
      s.encoderCanId = encoderFn
        { priority := priority, pgn := pgn, sourceAddress := sourceAddress, reserved := reserved }
  | .pgnDerivePdu2 dataPage pduFormat pduSpecific =>
      s.muxPgn = muxFn { dataPage := dataPage, pduFormat := pduFormat, pduSpecific := pduSpecific }
  | .pgnDerivePdu1 dataPage pduFormat pduSpecific =>
      s.muxPgn = muxFn { dataPage := dataPage, pduFormat := pduFormat, pduSpecific := pduSpecific }

/-- The input ports of the sub-block that `i` drives carry `i`'s operands. -/
def State.Carries (s : State) : Instr → Prop
  | .decode canId => s.decoder.inp = canId
  | .encode priority pgn sourceAddress reserved =>
      s.encoder.inp = { priority := priority, pgn := pgn, sourceAddress := sourceAddress, reserved := reserved }
  | .pgnDerivePdu2 dataPage pduFormat pduSpecific =>
      s.mux.inp = { dataPage := dataPage, pduFormat := pduFormat, pduSpecific := pduSpecific }
  | .pgnDerivePdu1 dataPage pduFormat pduSpecific =>
      s.mux.inp = { dataPage := dataPage, pduFormat := pduFormat, pduSpecific := pduSpecific }

/-- Every sub-block other than `b` has the same ports in `s` and `t`. -/
def State.SameBut (b : SubBlock) (s t : State) : Prop :=
  (b ≠ .decoder → t.decoder = s.decoder) ∧ (b ≠ .encoder → t.encoder = s.encoder) ∧ (b ≠ .mux → t.mux = s.mux)

end Sys2Proof.Machine
end

