-- ==== Sys2Proof/Certificates/Slice0/Obligations.lean ====
section
/-! DEFINITION. The statements for the provers. `shl` and `shr` in the spec's formulas are `<<<` and `>>>` on natural
numbers. An operation `i` of the opcode table is sampled once it has settled: the state after `exec i`. -/

open Sys2Proof Sys2Proof.Machine

/-! ## The step and the boundary -/

/-- The model's choice (log entries 1, 2, 3): after power-up nothing is driven and the outside has nothing scheduled, so
that every output, and both internal selects, show free values. The spec's own part is R65's "unspecified" until driven. -/
def Obligations.PowerUpLeavesEveryOutputFree : Prop :=
  State.reset.decoder.net = .undriven ∧ State.reset.encoder.net = .undriven ∧ State.reset.mux.net = .undriven ∧
    State.reset.stimuli = [] ∧
    State.reset.decoderOut = Config.freeDecoderOut State.reset.instant ∧
    State.reset.encoderCanId = Config.freeCanId State.reset.instant ∧
    State.reset.muxPgn = Config.freePgn State.reset.instant ∧
    State.reset.muxPdu2Sel = Config.freeMuxSel State.reset.instant ∧
    State.reset.decoderPdu2Sel = Config.freeDecoderSel State.reset.instant

/-- A step runs the decoded operation (the model's convention, log entry 1): when the next thing the outside does is to
present, to be sampled settled, a request that decodes to `i`, the step is `exec i` on the state without that request. -/
def Obligations.StepRunsPresentedOperation : Prop :=
  ∀ (s : State) (r : Request) (rest : List Stimulus) (i : Instr),
    s.stimuli = .present r .settled :: rest → decodeRequest Config.widths r = .ok i →
      step s = exec i { s with stimuli := rest }

/-- A word placed by `withFetchWord` is run by the very next step (the model's convention, log entry 9). -/
def Obligations.StepRunsFetchedTableWord : Prop :=
  ∀ (s : State) (nbits w : Nat) (i : Instr),
    decodeTableWord nbits w = some i → step (s.withFetchWord nbits w) = exec i s

/-- With nothing scheduled, a step changes no port (log entry 18). -/
def Obligations.IdleStepChangesNoPort : Prop :=
  ∀ s : State, s.stimuli = [] →
    ∃ t, step s = .next t ∧ t.decoder = s.decoder ∧ t.encoder = s.encoder ∧ t.mux = s.mux ∧ t.stimuli = []

/-- The model's boundary (log entry 12, DEDUCED from R18, D8 and D18, which say that such inputs are refused and not where):
a step refuses, by name, a word on a sub-block's pins (log entry 8) with an unknown, undriven or high-impedance pin or
with fewer pins than the sub-block has, and a call with a negative integer, whenever the outside meant to sample. -/
def Obligations.StepRefusesUnknownAndNegativeInputs : Prop :=
  ∀ (s : State) (rest : List Stimulus) (tm : Timing),
    (∀ (b : SubBlock) (word : List Pin),
      ((∃ p ∈ word, p = .unknown ∨ p = .undriven ∨ p = .highZ) ∨ word.length < bundleWidth Config.widths b) →
      s.stimuli = .present (.pins b word) tm :: rest → step s = .refused (.rejected .unknownPin)) ∧
    (∀ c : Call, (∃ a ∈ c.arguments, a < 0) →
      s.stimuli = .present (.call c) tm :: rest → step s = .refused (.rejected .negativeInput))

/-- Every call of R38 with natural arguments that the ports can carry is an operation, at every port width: `decode` and
`encode` with any naturals, the three-operand `encode` with `reserved` 0 (R39), and `pgn_derive` with one, eight and
eight bits, on the row that `pdu_format` selects (R34). -/
def Obligations.CallsInDomainAreOperations : Prop :=
  ∀ c : Config.Widths,
    (∀ x : Nat, decodeRequest c (.call (.decode x)) = .ok (.decode x)) ∧
    (∀ p g a r : Nat, decodeRequest c (.call (.encode p g a (some (r : Int)))) = .ok (.encode p g a r)) ∧
    (∀ p g a : Nat, decodeRequest c (.call (.encode p g a none)) = .ok (.encode p g a 0)) ∧
    (∀ (dp : Bit) (pf ps : Octet),
      decodeRequest c (.call (.pgnDerive dp.toNat pf.toNat ps.toNat)) =
        .ok (if 240 ≤ pf.toNat then .pgnDerivePdu2 dp pf ps else .pgnDerivePdu1 dp pf ps))

/-- R57: no operation faults or refuses, on any operands in any state; each gives the output of its sub-block's rule. -/
def Obligations.EveryOperationGivesItsOutput : Prop :=
  ∀ (i : Instr) (s : State), ∃ t, exec i s = .next t ∧ t.Carries i ∧ t.Shows i

/-- No step faults, which the empty type Fault makes true of any step, and a step refuses exactly a request that decodes to
no operation. What is refused, and that the step refuses it, is the model's boundary: negative integers and pins that carry
no 0 or 1 are log entry 12 (DEDUCED from R18, D8, D18), and a value that the ports have no wire for is log entry 11
(DESIGN CHOICE). No operation refuses (R57). -/
def Obligations.StepRefusesOnlyRejectedRequests : Prop :=
  ∀ s : State,
    (∀ f, step s ≠ .fault f) ∧
    ∀ why, step s = .refused why ↔
      ∃ r tm rest e, s.stimuli = .present r tm :: rest ∧ decodeRequest Config.widths r = .error e ∧ why = .rejected e

/-! ## DECODE -/

/-- R46: `DECODE` completes in every state on every `can_id`; its seven outputs are the spec's shifts and masks, and the
PGN keeps bits 15..8 exactly when bits 23..20 are all ones. -/
def Obligations.DecodeUnpacksIdentifier : Prop :=
  ∀ (x : Nat) (s : State), ∃ t, exec (.decode x) s = .next t ∧ t.decoder.inp = x ∧
    t.decoderOut.priority.toNat = (x >>> 26) &&& 0x7 ∧
    t.decoderOut.reserved.toNat = (x >>> 25) &&& 0x1 ∧
    t.decoderOut.dataPage.toNat = (x >>> 24) &&& 0x1 ∧
    t.decoderOut.pduFormat.toNat = (x >>> 16) &&& 0xFF ∧
    t.decoderOut.pduSpecific.toNat = (x >>> 8) &&& 0xFF ∧
    t.decoderOut.sourceAddress.toNat = x &&& 0xFF ∧
    t.decoderOut.pgn.toNat =
      (((x >>> 24) &&& 0x1) <<< 16) ||| (((x >>> 16) &&& 0xFF) <<< 8) |||
        (if (x >>> 20) &&& 0xF = 0xF then (x >>> 8) &&& 0xFF else 0)

/-- The frame of `DECODE`: it changes the decoder's ports, and of the rest only the model's sampling instant. -/
def Obligations.DecodeFrame : Prop :=
  ∀ (x : Nat) (s t : State), exec (.decode x) s = .next t →
    t.encoder = s.encoder ∧ t.mux = s.mux ∧ t.stimuli = s.stimuli ∧ t.instant = s.instant + 1 ∧
      (∀ v, s.encoder.net = .settled v → t.encoderCanId = s.encoderCanId) ∧
      (∀ v, s.mux.net = .settled v → t.muxPgn = s.muxPgn ∧ t.muxPdu2Sel = s.muxPdu2Sel)

/-- R47: bits 29 and above of `can_id` affect no output. -/
def Obligations.DecodeIgnoresBitsAbove28 : Prop :=
  ∀ (x : Nat) (s : State), ∃ t u, exec (.decode x) s = .next t ∧ exec (.decode (x &&& 0x1FFFFFFF)) s = .next u ∧
    t.decoderOut = u.decoderOut

/-- R48: `pdu_specific` shows bits 15..8 in both PDU classes; in PDU1 that byte is dropped, but only from `pgn`: two
identifiers that differ in it alone give the same six other outputs. -/
def Obligations.Pdu1DropsPduSpecificOnlyFromPgn : Prop :=
  ∀ (x y : Nat) (s : State), ∃ t u, exec (.decode x) s = .next t ∧ exec (.decode y) s = .next u ∧
    t.decoderOut.pduSpecific.toNat = (x >>> 8) % 256 ∧
    ((x >>> 16) % 256 < 240 → x &&& 0xFFFF00FF = y &&& 0xFFFF00FF →
      t.decoderOut = { u.decoderOut with pduSpecific := t.decoderOut.pduSpecific } ∧
        t.decoderOut.pgn.toNat % 256 = 0)

/-- R35: every 29-bit value is a legal identifier on the pins, and bit 25 reaches the `reserved` output and no other. -/
def Obligations.ReservedBitReachesOnlyItsOutput : Prop :=
  ∀ x : Nat, x < 2 ^ 29 →
    decodeBundle Config.widths .decoder x = .ok (.decode x) ∧
    ∀ s : State, ∃ t u, exec (.decode x) s = .next t ∧ exec (.decode (x ^^^ 2 ^ 25)) s = .next u ∧
      u.decoderOut = { t.decoderOut with reserved := ~~~ t.decoderOut.reserved }

/-- R49: on 29 bits the six primitive outputs recombine to `can_id` by the formula of R30, and the decoder is a bijection
onto the records of six fields; on wider values it is many-to-one. -/
def Obligations.PrimitiveFieldsRecombine : Prop :=
  (∀ (x : Nat) (s : State), x < 2 ^ 29 → ∃ t, exec (.decode x) s = .next t ∧
    (t.decoderOut.priority.toNat <<< 26) ||| (t.decoderOut.reserved.toNat <<< 25) |||
      (t.decoderOut.dataPage.toNat <<< 24) ||| (t.decoderOut.pduFormat.toNat <<< 16) |||
      (t.decoderOut.pduSpecific.toNat <<< 8) ||| t.decoderOut.sourceAddress.toNat = x) ∧
  (∀ (p : Priority) (r dp : Bit) (pf ps sa : Octet) (s : State), ∃ x < 2 ^ 29,
    (∃ t, exec (.decode x) s = .next t ∧ t.decoderOut.priority = p ∧ t.decoderOut.reserved = r ∧
      t.decoderOut.dataPage = dp ∧ t.decoderOut.pduFormat = pf ∧ t.decoderOut.pduSpecific = ps ∧
      t.decoderOut.sourceAddress = sa) ∧
    ∀ y < 2 ^ 29, (∃ t, exec (.decode y) s = .next t ∧ t.decoderOut.priority = p ∧ t.decoderOut.reserved = r ∧
      t.decoderOut.dataPage = dp ∧ t.decoderOut.pduFormat = pf ∧ t.decoderOut.pduSpecific = ps ∧
      t.decoderOut.sourceAddress = sa) → y = x) ∧
  ∀ (x : Nat) (s : State), ∃ t u, exec (.decode x) s = .next t ∧ exec (.decode (x + 2 ^ 29)) s = .next u ∧
    u.decoderOut = t.decoderOut

/-- R17: the decoder's own mux and the standalone mux compute the same function. The standalone mux, given the decoder's
three field outputs, shows the decoder's `pgn`, and the two internal selects agree. -/
def Obligations.DecoderMuxAgreesWithStandaloneMux : Prop :=
  ∀ (x : Nat) (s : State), ∃ t, exec (.decode x) s = .next t ∧
    ∃ u, exec (decodeMuxBundle
        (t.decoderOut.dataPage ++ t.decoderOut.pduFormat ++ t.decoderOut.pduSpecific).toNat) t = .next u ∧
      u.muxPgn = t.decoderOut.pgn ∧ u.muxPdu2Sel = t.decoderPdu2Sel ∧ u.decoderOut = t.decoderOut

/-! ## PGN_DERIVE -/

/-- R41: `pdu2_sel` is `pdu_format >= 240`, the AND of bits 7 to 4 of `pdu_format`, and nothing else affects it. -/
def Obligations.SelectSignalIsPduFormatAtLeast240 : Prop :=
  ∀ (dp : Bit) (pf ps : Octet) (s : State),
    (∃ t, exec (.pgnDerivePdu2 dp pf ps) s = .next t ∧ t.muxPdu2Sel = decide (pf ≥ 240)) ∧
    (∃ t, exec (.pgnDerivePdu1 dp pf ps) s = .next t ∧
      t.muxPdu2Sel = (pf.getLsbD 7 && pf.getLsbD 6 && pf.getLsbD 5 && pf.getLsbD 4))

/-- R42: `PGN_DERIVE.PDU1` completes in every state for every `pdu_format` below 240; the PGN is the data page and the
PDU format, with bits 7..0 zero whatever `pdu_specific` is. -/
def Obligations.Pdu1PgnLeavesOutPduSpecific : Prop :=
  ∀ (dp : Bit) (pf ps : Octet) (s : State), pf.toNat < 240 →
    ∃ t, exec (.pgnDerivePdu1 dp pf ps) s = .next t ∧
      t.mux.inp = { dataPage := dp, pduFormat := pf, pduSpecific := ps } ∧ t.muxPdu2Sel = false ∧
      t.muxPgn.toNat = (dp.toNat <<< 16) ||| (pf.toNat <<< 8) ∧ t.muxPgn = dp ++ pf ++ (0#8 : Octet) ∧
      t.muxPgn.toNat ≤ 0x1EF00

/-- R43: `PGN_DERIVE.PDU2` completes in every state for every `pdu_format` from 240 up; the PGN keeps all 17 input bits. -/
def Obligations.Pdu2PgnKeepsAllInputBits : Prop :=
  ∀ (dp : Bit) (pf ps : Octet) (s : State), 240 ≤ pf.toNat →
    ∃ t, exec (.pgnDerivePdu2 dp pf ps) s = .next t ∧
      t.mux.inp = { dataPage := dp, pduFormat := pf, pduSpecific := ps } ∧ t.muxPdu2Sel = true ∧
      t.muxPgn.toNat = (dp.toNat <<< 16) ||| (pf.toNat <<< 8) ||| ps.toNat ∧ t.muxPgn = dp ++ pf ++ ps ∧
      0x0F000 ≤ t.muxPgn.toNat ∧
      ∀ (dp' : Bit) (pf' ps' : Octet) (u : State), exec (.pgnDerivePdu2 dp' pf' ps') s = .next u → 240 ≤ pf'.toNat →
        u.muxPgn = t.muxPgn → dp' = dp ∧ pf' = pf ∧ ps' = ps

/-- R44: the laws of the mux's output over all 2^17 inputs, on either row. -/
def Obligations.MuxOutputLaws : Prop :=
  ∀ (dp : Bit) (pf ps : Octet) (s t : State),
    (exec (.pgnDerivePdu2 dp pf ps) s = .next t ∨ exec (.pgnDerivePdu1 dp pf ps) s = .next t) →
      t.muxPgn = dp ++ pf ++ (if t.muxPdu2Sel then ps else 0#8) ∧
      t.muxPgn.extractLsb' 16 1 = dp ∧ t.muxPgn.extractLsb' 8 8 = pf ∧ t.muxPgn.toNat ≤ 0x1FFFF ∧
      (pf.toNat < 240 → t.muxPgn.extractLsb' 0 8 = 0#8) ∧
      (t.muxPgn.extractLsb' 12 4 = 0b1111#4 ↔ t.muxPdu2Sel = true) ∧
      ∀ (ps' : Octet) (u : State),
        (exec (.pgnDerivePdu2 dp pf ps') s = .next u ∨ exec (.pgnDerivePdu1 dp pf ps') s = .next u) →
          (u.muxPgn = t.muxPgn ↔ pf.toNat < 240 ∨ ps' = ps)

/-- R45: the PGN is one-way. It determines `data_page` and `pdu_format`; it determines `pdu_specific` when its bits
15..12 are all ones, and otherwise every other `pdu_specific` gives the same PGN. -/
def Obligations.PgnIsOneWay : Prop :=
  ∀ (x y : MuxIn),
    (muxFn x = muxFn y → x.dataPage = y.dataPage ∧ x.pduFormat = y.pduFormat ∧
      ((muxFn x).extractLsb' 12 4 = 0b1111#4 → x.pduSpecific = y.pduSpecific)) ∧
    ((muxFn x).extractLsb' 12 4 ≠ 0b1111#4 →
      (muxFn x).extractLsb' 0 8 = 0#8 ∧ ∀ ps : Octet, muxFn { x with pduSpecific := ps } = muxFn x)

/-- R33: `pdu_format >= 240` chooses PDU2, and the three other forms of the test agree with it: on the upper half of `pdu_format`, on identifier bits, and on the mux's bundle. -/
def Obligations.PduClassTestsAgree : Prop :=
  (∀ pf : Octet, pdu2Sel pf = true ↔ 240 ≤ pf.toNat) ∧
  (∀ pf : Octet, pdu2Sel pf = true ↔ pf.extractLsb' 4 4 = 0b1111#4) ∧
  (∀ x : Nat, pdu2Sel (idPduFormat x) = true ↔ x &&& 0x00F00000 = 0x00F00000) ∧
  (∀ (dp : Bit) (pf ps : Octet), pdu2Sel pf = true ↔ (dp ++ pf ++ ps).toNat &&& 0x0F000 = 0x0F000)

/-- The frame of both rows of the mux: they change the standalone mux's ports, and of the rest only the model's sampling
instant; the decoder's own mux is not touched. -/
def Obligations.PgnDeriveFrame : Prop :=
  ∀ (dp : Bit) (pf ps : Octet) (s t : State),
    (exec (.pgnDerivePdu2 dp pf ps) s = .next t ∨ exec (.pgnDerivePdu1 dp pf ps) s = .next t) →
      t.decoder = s.decoder ∧ t.encoder = s.encoder ∧ t.stimuli = s.stimuli ∧ t.instant = s.instant + 1 ∧
        (∀ v, s.decoder.net = .settled v → t.decoderOut = s.decoderOut ∧ t.decoderPdu2Sel = s.decoderPdu2Sel) ∧
        (∀ v, s.encoder.net = .settled v → t.encoderCanId = s.encoderCanId)

/-! ## ENCODE -/

/-- R51, R30: `ENCODE` completes in every state on every input; the identifier is the masked parts reassembled, with OR
and with addition, the parts being disjoint. -/
def Obligations.EncodePacksMaskedFields : Prop :=
  ∀ (p g a r : Nat) (s : State), ∃ t, exec (.encode p g a r) s = .next t ∧
    t.encoder.inp = { priority := p, pgn := g, sourceAddress := a, reserved := r } ∧
    t.encoderCanId.toNat =
      ((p &&& 0x7) <<< 26) ||| ((r &&& 0x1) <<< 25) ||| (((g >>> 16) &&& 0x1) <<< 24) |||
        (((g >>> 8) &&& 0xFF) <<< 16) ||| ((g &&& 0xFF) <<< 8) ||| (a &&& 0xFF) ∧
    t.encoderCanId.toNat =
      ((p &&& 0x7) <<< 26) + ((r &&& 0x1) <<< 25) + (((g >>> 16) &&& 0x1) <<< 24) +
        (((g >>> 8) &&& 0xFF) <<< 16) + ((g &&& 0xFF) <<< 8) + (a &&& 0xFF)

/-- The frame of `ENCODE`: it changes the encoder's ports, and of the rest only the model's sampling instant. -/
def Obligations.EncodeFrame : Prop :=
  ∀ (p g a r : Nat) (s t : State), exec (.encode p g a r) s = .next t →
    t.decoder = s.decoder ∧ t.mux = s.mux ∧ t.stimuli = s.stimuli ∧ t.instant = s.instant + 1 ∧
      (∀ v, s.decoder.net = .settled v → t.decoderOut = s.decoderOut ∧ t.decoderPdu2Sel = s.decoderPdu2Sel) ∧
      (∀ v, s.mux.net = .settled v → t.muxPgn = s.muxPgn ∧ t.muxPdu2Sel = s.muxPdu2Sel)

/-- R52: the masking law, for `priority`, `source_address` and `reserved`, and for `pgn`. -/
def Obligations.EncodeMaskingLaw : Prop :=
  ∀ (p g a r : Nat) (s : State), ∃ t u v, exec (.encode p g a r) s = .next t ∧
    exec (.encode (p &&& 0x7) g (a &&& 0xFF) (r &&& 0x1)) s = .next u ∧
    exec (.encode p (g &&& 0x1FFFF) a r) s = .next v ∧
    u.encoderCanId = t.encoderCanId ∧ v.encoderCanId = t.encoderCanId

/-- R32, R53: the `pgn` input is split with no branch. Its bits 16, 15..8 and 7..0 go into identifier bits 24, 23..16
and 15..8 for every `pdu_format`; its bits 17 and above, which never reach bit 25, affect nothing. -/
def Obligations.EncodeSplitsPgnWithoutBranch : Prop :=
  ∀ (p g a r : Nat) (s : State), ∃ t, exec (.encode p g a r) s = .next t ∧
    t.encoderCanId.extractLsb' 24 1 = BitVec.ofNat 1 (g >>> 16) ∧
    t.encoderCanId.extractLsb' 16 8 = BitVec.ofNat 8 (g >>> 8) ∧
    t.encoderCanId.extractLsb' 8 8 = BitVec.ofNat 8 g ∧
    t.encoderCanId.extractLsb' 25 1 = BitVec.ofNat 1 r ∧
    ∀ (k : Nat), 17 ≤ k → ∃ u, exec (.encode p (g ^^^ 2 ^ k) a r) s = .next u ∧ u.encoderCanId = t.encoderCanId

/-- R54: every part is masked before it is placed, so the number of the reassembled parts is at most 0x1FFFFFFF and is what
the 29-bit port shows; a wider word carries that same number, with bits 29 and above 0. -/
def Obligations.EncodeOutputStaysIn29Bits : Prop :=
  Config.wOut = 29 ∧
  ∀ (p g a r n : Nat) (s : State),
    n = ((p &&& 0x7) <<< 26) ||| ((r &&& 0x1) <<< 25) ||| (((g >>> 16) &&& 0x1) <<< 24) |||
        (((g >>> 8) &&& 0xFF) <<< 16) ||| ((g &&& 0xFF) <<< 8) ||| (a &&& 0xFF) →
    n ≤ 0x1FFFFFFF ∧ ∃ t, exec (.encode p g a r) s = .next t ∧ t.encoderCanId.toNat = n ∧
      ∀ w, Config.wOut ≤ w → (carriedIn w t.encoderCanId).toNat = n ∧
        ∀ k, 29 ≤ k → (carriedIn w t.encoderCanId).getLsbD k = false

/-- R39: three-operand `encode` is four-operand `encode` with `reserved` 0, as an operation and as a call. -/
def Obligations.ThreeOperandEncodeTiesReservedToZero : Prop :=
  ∀ (p g a : Nat),
    (∀ s : State, exec (Instr.encode3 p g a) s = exec (.encode p g a 0) s) ∧
    ∀ c : Config.Widths, decodeRequest c (.call (.encode p g a none)) =
      decodeRequest c (.call (.encode p g a (some 0)))

/-! ## Round trips and chains -/

/-- R55: decode after encode, through the machine, on every input. Feeding one operation's output to the next needs
nothing between them. -/
def Obligations.DecodeAfterEncode : Prop :=
  ∀ (p g a r : Nat) (s : State), ∃ t u, exec (.encode p g a r) s = .next t ∧
    exec (.decode t.encoderCanId.toNat) t = .next u ∧
    u.decoderOut.priority.toNat = p &&& 0x7 ∧ u.decoderOut.reserved.toNat = r &&& 0x1 ∧
    u.decoderOut.sourceAddress.toNat = a &&& 0xFF ∧
    u.decoderOut.dataPage.toNat = (g >>> 16) &&& 0x1 ∧ u.decoderOut.pduFormat.toNat = (g >>> 8) &&& 0xFF ∧
    u.decoderOut.pduSpecific.toNat = g &&& 0xFF ∧
    (240 ≤ (g >>> 8) &&& 0xFF → u.decoderOut.pgn.toNat = g &&& 0x1FFFF) ∧
    ((g >>> 8) &&& 0xFF < 240 →
      u.decoderOut.pgn.toNat = (((g >>> 16) &&& 0x1) <<< 16) ||| (((g >>> 8) &&& 0xFF) <<< 8)) ∧
    (u.decoderOut.pgn.toNat ≠ g ↔ 2 ^ 17 ≤ g ∨ ((g >>> 8) &&& 0xFF < 240 ∧ g &&& 0xFF ≠ 0))

/-- R56: encode after decode, through the machine: the identifier comes back in PDU2, and with bits 15..8 cleared in
PDU1. -/
def Obligations.EncodeAfterDecode : Prop :=
  ∀ (x : Nat) (s : State), x < 2 ^ 29 → ∃ t u, exec (.decode x) s = .next t ∧
    exec (.encode t.decoderOut.priority.toNat t.decoderOut.pgn.toNat t.decoderOut.sourceAddress.toNat
      t.decoderOut.reserved.toNat) t = .next u ∧
    u.encoderCanId.toNat = if (x >>> 20) &&& 0xF = 0xF then x else x &&& 0x1FFF00FF

/-- R5: no result depends on the widths of the input ports, once each is at its minimum: an operation whose operands pass
through ports of the widths `c` gives the outputs of the same operation on ports without limit. -/
def Obligations.ResultsDoNotDependOnPortWidths : Prop :=
  ∀ (c : Config.Widths), c.Admissible → ∀ s : State,
    (∀ x : Nat, ∃ t u, exec (.decode x) s = .next t ∧ exec (.decode (throughIdPort c x)) s = .next u ∧
      u.decoderOut = t.decoderOut) ∧
    ∀ x : EncoderIn, ∃ t u, exec (.encode x.priority x.pgn x.sourceAddress x.reserved) s = .next t ∧
      exec (.encode (throughEncoderPorts c x).priority (throughEncoderPorts c x).pgn
        (throughEncoderPorts c x).sourceAddress (throughEncoderPorts c x).reserved) s = .next u ∧
      u.encoderCanId = t.encoderCanId

/-- R22: operations are idempotent: the same operation again leaves every port as it is. -/
def Obligations.OperationsAreIdempotent : Prop :=
  ∀ (i : Instr) (s : State), ∃ t u, exec i s = .next t ∧ exec i t = .next u ∧
    u.decoder = t.decoder ∧ u.encoder = t.encoder ∧ u.mux = t.mux

/-- R24: operations on different sub-blocks give the same state in either order. -/
def Obligations.OperationsOnDifferentSubBlocksCommute : Prop :=
  ∀ (i j : Instr) (s : State), i.block ≠ j.block →
    ∃ t u v, exec i s = .next t ∧ exec j t = .next v ∧ exec j s = .next u ∧ exec i u = .next v

/-- R65, R11: power-up and earlier inputs have no effect on an output. An operation leaves the same values on its
sub-block's ports whatever state it finds. -/
def Obligations.EarlierInputsDoNotMatter : Prop :=
  ∀ (s s' : State) (i : Instr),
    ∃ t u, exec i s = .next t ∧ exec i s' = .next u ∧
      (i.block = .decoder → t.decoder = u.decoder ∧ t.decoderOut = u.decoderOut ∧ t.decoderPdu2Sel = u.decoderPdu2Sel) ∧
      (i.block = .encoder → t.encoder = u.encoder ∧ t.encoderCanId = u.encoderCanId) ∧
      (i.block = .mux → t.mux = u.mux ∧ t.muxPgn = u.muxPgn ∧ t.muxPdu2Sel = u.muxPdu2Sel)

/-! ## Settling -/

/-- R67: an output sampled before its changed inputs have been stable for `T_PD` is a free value. The step that presents
`i` early leaves the operands on the inputs; where they differ from what was there, or nothing was driven, the outputs
of that sub-block are free. These clauses are the model's choice: where nothing changed, nothing changes (log entry 7,
DEDUCED, unsafe); all outputs of the sub-block are freed together (entry 17, DESIGN CHOICE); its internal `pdu2_sel` is free
with them (entry 16, DESIGN CHOICE); the free values depend on the sampling instant (entry 3, DESIGN CHOICE); elapsed time
starts at 0 and the sample is free even for a `T_PD` of 0 (entry 19, DESIGN CHOICE). -/
def Obligations.EarlySampleIsFree : Prop :=
  ∀ (s : State) (r : Request) (rest : List Stimulus) (i : Instr),
    s.stimuli = .present r .early :: rest → decodeRequest Config.widths r = .ok i →
    ∃ t, step s = .next t ∧ t.Carries i ∧ t.stimuli = rest ∧ s.SameBut i.block t ∧
      (i.block = .decoder → (t.decoder.inp ≠ s.decoder.inp ∨ s.decoder.net = .undriven) →
        t.decoder.net = .settling 0 ∧ t.decoderOut = Config.freeDecoderOut t.instant ∧
          t.decoderPdu2Sel = Config.freeDecoderSel t.instant) ∧
      (i.block = .encoder → (t.encoder.inp ≠ s.encoder.inp ∨ s.encoder.net = .undriven) →
        t.encoder.net = .settling 0 ∧ t.encoderCanId = Config.freeCanId t.instant) ∧
      (i.block = .mux → (t.mux.inp ≠ s.mux.inp ∨ s.mux.net = .undriven) →
        t.mux.net = .settling 0 ∧ t.muxPgn = Config.freePgn t.instant ∧ t.muxPdu2Sel = Config.freeMuxSel t.instant) ∧
      (s.Carries i → (i.block = .decoder → s.decoder.net ≠ .undriven → t.decoder = s.decoder) ∧
        (i.block = .encoder → s.encoder.net ≠ .undriven → t.encoder = s.encoder) ∧
        (i.block = .mux → s.mux.net ≠ .undriven → t.mux = s.mux))

/-- R67: outputs reach the values of their rules once the inputs have been stable for `T_PD`, and before that they stay
free. A wait changes no input. How elapsed time is counted is log entry 4, that all outputs of a sub-block settle together
is entry 17 and that `pdu2_sel` does with them is entry 16 (all DESIGN CHOICE). -/
def Obligations.OutputsSettleAfterTPD : Prop :=
  ∀ (s : State) (time : Nat) (rest : List Stimulus), s.stimuli = .wait time :: rest →
    ∃ t, step s = .next t ∧ t.stimuli = rest ∧
      t.decoder.inp = s.decoder.inp ∧ t.encoder.inp = s.encoder.inp ∧ t.mux.inp = s.mux.inp ∧
      (∀ e, s.decoder.net = .settling e →
        if Config.tPD ≤ e + time then
          t.decoderOut = decoderFn s.decoder.inp ∧ t.decoderPdu2Sel = pdu2Sel (idPduFormat s.decoder.inp)
        else t.decoderOut = Config.freeDecoderOut t.instant ∧ t.decoderPdu2Sel = Config.freeDecoderSel t.instant ∧
          t.decoder.net = .settling (e + time)) ∧
      (∀ e, s.encoder.net = .settling e →
        if Config.tPD ≤ e + time then t.encoderCanId = encoderFn s.encoder.inp
        else t.encoderCanId = Config.freeCanId t.instant ∧ t.encoder.net = .settling (e + time)) ∧
      (∀ e, s.mux.net = .settling e →
        if Config.tPD ≤ e + time then t.muxPgn = muxFn s.mux.inp ∧ t.muxPdu2Sel = pdu2Sel s.mux.inp.pduFormat
        else t.muxPgn = Config.freePgn t.instant ∧ t.muxPdu2Sel = Config.freeMuxSel t.instant ∧ t.mux.net = .settling (e + time))

/-- R14, R67: a settled output keeps its value while its inputs stay as they are, and an undriven one stays unspecified
(R65), through any wait. -/
def Obligations.WaitKeepsSettledAndUndriven : Prop :=
  ∀ (s : State) (time : Nat) (rest : List Stimulus), s.stimuli = .wait time :: rest →
    ∃ t, step s = .next t ∧
      ((∀ e, s.decoder.net ≠ .settling e) → t.decoder = s.decoder) ∧
      ((∀ e, s.encoder.net ≠ .settling e) → t.encoder = s.encoder) ∧
      ((∀ e, s.mux.net ≠ .settling e) → t.mux = s.mux)

/-! ## Invariants -/

/-- R14: every step keeps each settled output equal to the function of the values now on its sub-block's inputs. -/
def Obligations.StepKeepsOutputsDrivenByInputs : Prop :=
  ∀ s t : State, s.Driven = true → step s = .next t → t.Driven = true

/-- The invariant holds after power-up. -/
def Obligations.PowerUpIsDriven : Prop := State.reset.Driven = true

/-- Along any run from a state with the invariant, a settled output is the function of its inputs. -/
def Obligations.RunsKeepOutputsDrivenByInputs : Prop :=
  ∀ (k : Nat) (s t : State), s.Driven = true → Sys2Proof.core.run k s = .next t →
    (∀ v, t.decoder.net = .settled v → t.decoderOut = decoderFn t.decoder.inp) ∧
    (∀ v, t.encoder.net = .settled v → t.encoderCanId = encoderFn t.encoder.inp) ∧
    (∀ v, t.mux.net = .settled v → t.muxPgn = muxFn t.mux.inp)

/-! ## Encoding -/

/-- Every well-formed operation, on pins of any widths, is read back from its word with every operand as it was. -/
def Obligations.DecodeOfEncodeIsIdentity : Prop :=
  ∀ (c : Config.Widths) (i : Instr), WellFormed c i = true → decodeRequest c (encode c i) = .ok i

/-- A word that decodes is the word of the operation it decodes to, and that operation is well-formed: no two words of
one sub-block stand for one operation. -/
def Obligations.EncodeOfDecodeIsIdentity : Prop :=
  ∀ (c : Config.Widths) (b : SubBlock) (n : Nat) (i : Instr), decodeBundle c b n = .ok i →
    WellFormed c i = true ∧ encodeBundle c i = (b, n)

/-- No value on the ports is illegal (R35 for the identifier): every word of zeros and ones on all of a sub-block's pins is
an operation of that sub-block. The order of the pins in the word is the model's choice (log entry 8, DESIGN CHOICE). -/
def Obligations.EveryDrivenWordIsAnOperation : Prop :=
  ∀ (c : Config.Widths) (b : SubBlock) (word : List Pin), (∀ p ∈ word, p = .zero ∨ p = .one) →
    word.length = bundleWidth c b → ∃ i, decodeRequest c (.pins b word) = .ok i ∧ i.block = b

/-- R34: the rows are tried in order, and the operation read from a word is that of the first row that selects it; on
the mux that is `PGN_DERIVE.PDU2` exactly when bits 15..12 of the bundle are all ones. -/
def Obligations.FirstSelectingRowDecides : Prop :=
  ∀ (c : Config.Widths) (b : SubBlock) (n : Nat) (i : Instr), decodeBundle c b n = .ok i →
    selectedMnemonic b n = some (mnemonicOf i) ∧
    (b = .mux → (mnemonicOf i = "PGN_DERIVE.PDU2" ↔ (n >>> 12) &&& 0xF = 0xF) ∧
      (mnemonicOf i = "PGN_DERIVE.PDU1" ↔ (n >>> 12) &&& 0xF ≠ 0xF))

/-- R9: a bit range is the shift by its offset and the mask of its width. -/
def Obligations.BitRangeIsShiftAndMask : Prop :=
  ∀ (w lo v : Nat), (bits w lo v).toNat = (v >>> lo) &&& (2 ^ w - 1)

/-- A sanity statement: words whose fields are written out from the spec's layouts of the identifier (R29) and of the mux's
bundle (R34) decode to the operations they stand for. The rest is the model's choice: that a word of 32 bits is a DECODE
and one of 24 bits a word of the mux (log entry 9, DESIGN CHOICE), the order of the encoder's bundle (entry 8, DESIGN
CHOICE) and its widths of 32 bits (entry 10, DESIGN CHOICE). -/
def Obligations.WrittenOutWordsDecode : Prop :=
  -- PPP R D FFFFFFFF SSSSSSSS AAAAAAAA
  decodeTableWord 32 0b110_0_0_11111110_11110001_00000000 = some (.decode 0x18FEF100) ∧
  -- D FFFFFFFF SSSSSSSS
  decodeTableWord 24 0b1_11110000_00010010 = some (.pgnDerivePdu2 1 0xF0 0x12) ∧
  decodeTableWord 24 0b1_11101111_00010010 = some (.pgnDerivePdu1 1 0xEF 0x12) ∧
  -- priority, pgn, source_address, reserved: 32 bits each
  decodeBundle Config.widths .encoder 0x00000006_0000FEEE_00000080_00000001 = .ok (.encode 6 0xFEEE 0x80 1)
end

