-- ==== Sys2Proof/Laws/Decode.lean ====
section
/-! SUPPORT. Pins carry numbers, and a bundle's parts are read back from its number. -/

namespace Sys2Proof

theorem Pin.level_ofLevel (b : Bool) : (Pin.ofLevel b).level = some b := by
  cases b <;> rfl

/-- `k` pins carry every number below `2 ^ k`. -/
theorem pinsValue_pinsOf (k n : Nat) : pinsValue (pinsOf k n) = some (n % 2 ^ k) := by
  induction k generalizing n with
  | zero => simp [pinsOf, pinsValue, Nat.mod_one]
  | succ k ih =>
    simp only [pinsOf, pinsValue, Pin.level_ofLevel, ih, Option.some.injEq]
    rw [Nat.pow_succ, Nat.mul_comm (2 ^ k) 2, Nat.mod_mul, Nat.testBit_zero]
    rcases Nat.mod_two_eq_zero_or_one n with h | h <;> simp [h]

@[simp] theorem pinsOf_length (k n : Nat) : (pinsOf k n).length = k := by
  induction k generalizing n with
  | zero => rfl
  | succ k ih => simp [pinsOf, ih]

/-- A word with a pin that has no level carries no number. -/
theorem pinsValue_eq_none {word : List Pin} (h : ∃ p ∈ word, p = .unknown ∨ p = .undriven ∨ p = .highZ) :
    pinsValue word = none := by
  induction word with
  | nil => simp at h
  | cons p ps ih =>
    obtain ⟨q, hq, hv⟩ := h
    rcases List.mem_cons.mp hq with rfl | hq
    · rcases hv with rfl | rfl | rfl <;> simp [pinsValue, Pin.level]
    · simp only [pinsValue, ih ⟨q, hq, hv⟩]
      cases p.level <;> rfl

/-- Every word with fewer pins than the sub-block, or with a pin that has no level, is refused by name. -/
theorem decodeRequest_pins_refused (c : Config.Widths) {b : SubBlock} {word : List Pin}
    (h : word.length < bundleWidth c b ∨ ∃ p ∈ word, p = .unknown ∨ p = .undriven ∨ p = .highZ) :
    decodeRequest c (.pins b word) = .error .unknownPin := by
  by_cases hl : word.length < bundleWidth c b
  · simp [decodeRequest, hl]
  · simp [decodeRequest, hl, pinsValue_eq_none (h.resolve_left hl)]

/-- A word with all of the sub-block's pins is the operation of the number it carries. -/
theorem decodeRequest_pinsOf (c : Config.Widths) {b : SubBlock} {k n : Nat} (hk : bundleWidth c b ≤ k) (hn : n < 2 ^ k) :
    decodeRequest c (.pins b (pinsOf k n)) = decodeBundle c b n := by
  simp [decodeRequest, Nat.not_lt.mpr hk, pinsValue_pinsOf, Nat.mod_eq_of_lt hn]

theorem natural_of_neg {x : Int} (h : x < 0) : natural x = .error .negativeInput := by
  cases x with
  | ofNat n => exact absurd h (by simp)
  | negSucc n => rfl

@[simp] theorem natural_natCast (n : Nat) : natural (n : Int) = .ok n := rfl

/-- `q * m + r` splits into `q` and `r` when `r` is below `m`. -/
theorem split_mul_add {q m r : Nat} (h : r < m) : (q * m + r) / m = q ∧ (q * m + r) % m = r := by
  constructor
  · rw [Nat.mul_comm, Nat.mul_add_div (by omega), Nat.div_eq_of_lt h, Nat.add_zero]
  · rw [Nat.mul_comm, Nat.mul_add_mod, Nat.mod_eq_of_lt h]

/-- A four-bit field is all ones exactly when its mask meets the number in full. -/
theorem and_mask_eq_iff (n k : Nat) : n &&& (15 <<< k) = 15 <<< k ↔ n / 2 ^ k % 16 = 15 := by
  have h : n &&& (15 <<< k) = (n / 2 ^ k % 16) <<< k := by
    have hm : n / 2 ^ k % 16 = (n >>> k) &&& 15 := by
      rw [Nat.shiftRight_eq_div_pow]
      exact (Nat.and_two_pow_sub_one_eq_mod _ 4).symm
    rw [hm]
    apply Nat.eq_of_testBit_eq
    intro i
    by_cases hi : k ≤ i <;> simp [Nat.testBit_shiftLeft, Nat.testBit_shiftRight, hi]
  rw [h, Nat.shiftLeft_eq, Nat.shiftLeft_eq, Nat.mul_left_inj (by positivity)]

/-- The number of the mux's bundle. -/
theorem muxBundle_toNat (dataPage : Bit) (pduFormat pduSpecific : Octet) :
    (dataPage ++ pduFormat ++ pduSpecific).toNat =
      dataPage.toNat * 2 ^ 16 + pduFormat.toNat * 2 ^ 8 + pduSpecific.toNat := by
  have hf := pduFormat.isLt
  have hs := pduSpecific.isLt
  rw [BitVec.toNat_append, BitVec.toNat_append, ← Nat.shiftLeft_add_eq_or_of_lt (by omega),
    ← Nat.shiftLeft_add_eq_or_of_lt (by omega)]
  simp only [Nat.shiftLeft_eq]
  omega

/-- Bits 15..12 of the mux's bundle are bits 7..4 of `pdu_format`: all ones exactly from 240 up (R33). -/
theorem muxBundle_mask (dataPage : Bit) (pduFormat pduSpecific : Octet) :
    (dataPage ++ pduFormat ++ pduSpecific).toNat &&& 0x0F000 = 0x0F000 ↔ 240 ≤ pduFormat.toNat := by
  have hf := pduFormat.isLt
  have hs := pduSpecific.isLt
  rw [show (0x0F000 : Nat) = 15 <<< 12 from rfl, and_mask_eq_iff, muxBundle_toNat]
  omega

end Sys2Proof
end

