-- ==== Sys2Proof/Laws/State.lean ====
section
/-! SUPPORT. What each update of the state leaves in each field. -/

namespace Sys2Proof.Machine

@[simp] theorem State.tick_decoder (s : State) : s.tick.decoder = s.decoder := rfl
@[simp] theorem State.tick_encoder (s : State) : s.tick.encoder = s.encoder := rfl
@[simp] theorem State.tick_mux (s : State) : s.tick.mux = s.mux := rfl
@[simp] theorem State.tick_stimuli (s : State) : s.tick.stimuli = s.stimuli := rfl
@[simp] theorem State.tick_instant (s : State) : s.tick.instant = s.instant + 1 := rfl

@[simp] theorem State.mapDecoder_decoder (g : Ports Nat DecoderOut → Ports Nat DecoderOut) (s : State) :
    (s.mapDecoder g).decoder = g s.decoder := rfl
@[simp] theorem State.mapDecoder_encoder (g : Ports Nat DecoderOut → Ports Nat DecoderOut) (s : State) :
    (s.mapDecoder g).encoder = s.encoder := rfl
@[simp] theorem State.mapDecoder_mux (g : Ports Nat DecoderOut → Ports Nat DecoderOut) (s : State) :
    (s.mapDecoder g).mux = s.mux := rfl
@[simp] theorem State.mapDecoder_stimuli (g : Ports Nat DecoderOut → Ports Nat DecoderOut) (s : State) :
    (s.mapDecoder g).stimuli = s.stimuli := rfl
@[simp] theorem State.mapDecoder_instant (g : Ports Nat DecoderOut → Ports Nat DecoderOut) (s : State) :
    (s.mapDecoder g).instant = s.instant := rfl

@[simp] theorem State.mapEncoder_decoder (g : Ports EncoderIn CanId → Ports EncoderIn CanId) (s : State) :
    (s.mapEncoder g).decoder = s.decoder := rfl
@[simp] theorem State.mapEncoder_encoder (g : Ports EncoderIn CanId → Ports EncoderIn CanId) (s : State) :
    (s.mapEncoder g).encoder = g s.encoder := rfl
@[simp] theorem State.mapEncoder_mux (g : Ports EncoderIn CanId → Ports EncoderIn CanId) (s : State) :
    (s.mapEncoder g).mux = s.mux := rfl
@[simp] theorem State.mapEncoder_stimuli (g : Ports EncoderIn CanId → Ports EncoderIn CanId) (s : State) :
    (s.mapEncoder g).stimuli = s.stimuli := rfl
@[simp] theorem State.mapEncoder_instant (g : Ports EncoderIn CanId → Ports EncoderIn CanId) (s : State) :
    (s.mapEncoder g).instant = s.instant := rfl

@[simp] theorem State.mapMux_decoder (g : Ports MuxIn Pgn → Ports MuxIn Pgn) (s : State) :
    (s.mapMux g).decoder = s.decoder := rfl
@[simp] theorem State.mapMux_encoder (g : Ports MuxIn Pgn → Ports MuxIn Pgn) (s : State) :
    (s.mapMux g).encoder = s.encoder := rfl
@[simp] theorem State.mapMux_mux (g : Ports MuxIn Pgn → Ports MuxIn Pgn) (s : State) :
    (s.mapMux g).mux = g s.mux := rfl
@[simp] theorem State.mapMux_stimuli (g : Ports MuxIn Pgn → Ports MuxIn Pgn) (s : State) :
    (s.mapMux g).stimuli = s.stimuli := rfl
@[simp] theorem State.mapMux_instant (g : Ports MuxIn Pgn → Ports MuxIn Pgn) (s : State) :
    (s.mapMux g).instant = s.instant := rfl

@[simp] theorem State.advance_decoder (s : State) : s.advance.decoder = s.decoder := rfl
@[simp] theorem State.advance_encoder (s : State) : s.advance.encoder = s.encoder := rfl
@[simp] theorem State.advance_mux (s : State) : s.advance.mux = s.mux := rfl
@[simp] theorem State.advance_stimuli (s : State) : s.advance.stimuli = s.stimuli.tail := rfl
@[simp] theorem State.advance_instant (s : State) : s.advance.instant = s.instant := rfl

end Sys2Proof.Machine
end

