-- ==== Sys2Proof/Laws/Ops.lean ====
section
/-! SUPPORT. What each shared operation can do, once. -/

namespace Sys2Proof.Machine

section ports
variable {ι α : Type}

@[simp] theorem Ports.operate_inp (f : ι → α) (x : ι) (b : Ports ι α) : (b.operate f x).inp = x := rfl
@[simp] theorem Ports.operate_net (f : ι → α) (x : ι) (b : Ports ι α) : (b.operate f x).net = .settled (f x) := rfl

@[simp] theorem Net.sample_undriven (free : α) : Net.sample free .undriven = free := rfl
@[simp] theorem Net.sample_settling (free : α) (e : Nat) : Net.sample free (.settling e) = free := rfl
@[simp] theorem Net.sample_settled (free v : α) : Net.sample free (.settled v) = v := rfl

/-- A change either changes nothing, the values being there already, or leaves the outputs to settle. -/
theorem Ports.change_cases [DecidableEq ι] (x : ι) (b : Ports ι α) :
    (x = b.inp ∧ b.net ≠ .undriven ∧ b.change x = b) ∨
      ((x ≠ b.inp ∨ b.net = .undriven) ∧ b.change x = { inp := x, net := .settling 0 }) := by
  obtain ⟨inp, net⟩ := b
  cases net <;> by_cases h : x = inp <;> simp [Ports.change, h]

@[simp] theorem Ports.change_inp [DecidableEq ι] (x : ι) (b : Ports ι α) : (b.change x).inp = x := by
  obtain ⟨h, -, e⟩ | ⟨-, e⟩ := b.change_cases x <;> simp [e]
  exact h.symm

/-- Waiting changes nothing, or settles the outputs, or brings them closer to it. -/
theorem Ports.wait_cases (f : ι → α) (t : Nat) (b : Ports ι α) :
    ((∀ e, b.net ≠ .settling e) ∧ b.wait f t = b) ∨
      (∃ e, b.net = .settling e ∧ Config.tPD ≤ e + t ∧ b.wait f t = { b with net := .settled (f b.inp) }) ∨
      ∃ e, b.net = .settling e ∧ ¬ Config.tPD ≤ e + t ∧ b.wait f t = { b with net := .settling (e + t) } := by
  obtain ⟨inp, net⟩ := b
  cases net with
  | undriven => simp [Ports.wait]
  | settled v => simp [Ports.wait]
  | settling e => by_cases h : Config.tPD ≤ e + t <;> simp [Ports.wait, h, Nat.lt_of_not_le]

@[simp] theorem Ports.wait_inp (f : ι → α) (t : Nat) (b : Ports ι α) : (b.wait f t).inp = b.inp := by
  obtain ⟨-, e⟩ | ⟨_, -, -, e⟩ | ⟨_, -, -, e⟩ := b.wait_cases f t <;> simp [e]

/-! Each operation on a sub-block's ports keeps a settled output equal to the function of the inputs. -/

theorem Ports.operate_driven [DecidableEq α] (f : ι → α) (x : ι) (b : Ports ι α) :
    (b.operate f x).Driven f = true := by
  simp [Ports.Driven]

theorem Ports.change_driven [DecidableEq ι] [DecidableEq α] {f : ι → α} {b : Ports ι α} (x : ι)
    (h : b.Driven f = true) : (b.change x).Driven f = true := by
  obtain ⟨-, -, e⟩ | ⟨-, e⟩ := b.change_cases x <;> rw [e]
  · exact h
  · rfl

theorem Ports.wait_driven [DecidableEq α] {f : ι → α} {b : Ports ι α} (t : Nat)
    (h : b.Driven f = true) : (b.wait f t).Driven f = true := by
  obtain ⟨-, e⟩ | ⟨_, -, -, e⟩ | ⟨_, -, -, e⟩ := b.wait_cases f t <;> rw [e]
  · exact h
  · simp [Ports.Driven]
  · rfl

end ports

theorem State.driven_iff (s : State) : s.Driven = true ↔
    s.decoder.Driven decoderFn = true ∧ s.encoder.Driven encoderFn = true ∧ s.mux.Driven muxFn = true := by
  simp [State.Driven, and_assoc]

/-- The number of a packed identifier: the source's formula with `+` (R30). -/
theorem packId_toNat (p : Priority) (r dp : Bit) (pf ps sa : Octet) :
    (packId p r dp pf ps sa).toNat =
      p.toNat * 2 ^ 26 + r.toNat * 2 ^ 25 + dp.toNat * 2 ^ 24 + pf.toNat * 2 ^ 16 + ps.toNat * 2 ^ 8 + sa.toNat := by
  have h1 := r.isLt; have h2 := dp.isLt; have h3 := pf.isLt; have h4 := ps.isLt; have h5 := sa.isLt
  simp only [packId, BitVec.toNat_append]
  rw [← Nat.shiftLeft_add_eq_or_of_lt (by omega), ← Nat.shiftLeft_add_eq_or_of_lt (by omega),
    ← Nat.shiftLeft_add_eq_or_of_lt (by omega), ← Nat.shiftLeft_add_eq_or_of_lt (by omega),
    ← Nat.shiftLeft_add_eq_or_of_lt (by omega)]
  simp only [Nat.shiftLeft_eq]
  omega

/-- The number of a mux output: bits 16..8 straight through, and the low octet kept only in PDU2 (R44). -/
theorem muxFn_toNat (x : MuxIn) :
    (muxFn x).toNat = x.dataPage.toNat * 2 ^ 16 + x.pduFormat.toNat * 2 ^ 8 +
      if 240 ≤ x.pduFormat.toNat then x.pduSpecific.toNat else 0 := by
  have h3 := x.pduFormat.isLt; have h4 := x.pduSpecific.isLt
  by_cases h : 240 ≤ x.pduFormat.toNat
  · simp only [muxFn, pdu2Sel, h, decide_true, if_true, pgnPdu2, BitVec.toNat_append]
    rw [← Nat.shiftLeft_add_eq_or_of_lt (by omega), ← Nat.shiftLeft_add_eq_or_of_lt (by omega)]
    simp only [Nat.shiftLeft_eq]
    omega
  · simp only [muxFn, pdu2Sel, h, decide_false, Bool.false_eq_true, if_false, pgnPdu1, BitVec.toNat_append]
    have h0 : (0 : Octet).toNat = 0 := rfl
    rw [h0, Nat.or_zero, ← Nat.shiftLeft_add_eq_or_of_lt (by omega)]
    simp only [Nat.shiftLeft_eq]
    omega

end Sys2Proof.Machine
end

