-- ==== Sys2Proof/Laws/Exec.lean ====
section
/-! SUPPORT. What an operation of the opcode table, an early change and a step can do, once each. -/

namespace Sys2Proof.Machine

/-- Every operation completes: its operands are on its sub-block's inputs and its outputs show their function; nothing else
changes but the sampling instant. -/
theorem exec_next (i : Instr) (s : State) : ∃ t, exec i s = .next t ∧ t.Carries i ∧ t.Shows i ∧
    s.SameBut i.block t ∧ t.stimuli = s.stimuli ∧ t.instant = s.instant + 1 := by
  cases i <;>
    exact ⟨_, rfl, rfl, rfl, by simp [State.SameBut, Instr.block, operateMux], rfl, rfl⟩

/-- The step, once: idle, a wait, a request outside the domain, an operation, or an early change. -/
theorem step_cases (s : State) :
    (s.stimuli = [] ∧ step s = .next s.tick) ∨
    (∃ t rest, s.stimuli = .wait t :: rest ∧ step s = .next (s.advance.wait t)) ∨
    (∃ r timing rest why, s.stimuli = .present r timing :: rest ∧ decodeRequest Config.widths r = .error why ∧
      step s = .refused (.rejected why)) ∨
    (∃ r rest i, s.stimuli = .present r .settled :: rest ∧ decodeRequest Config.widths r = .ok i ∧
      step s = exec i s.advance) ∨
    ∃ r rest i, s.stimuli = .present r .early :: rest ∧ decodeRequest Config.widths r = .ok i ∧
      step s = .next (presentEarly i s.advance) := by
  rcases hs : s.stimuli with _ | ⟨_ | ⟨t⟩, rest⟩
  · exact .inl ⟨rfl, by simp [step, hs]⟩
  · rename_i r timing
    right; right
    rcases hd : decodeRequest Config.widths r with why | i
    · exact .inl ⟨r, timing, rest, why, rfl, hd, by simp [step, hs, hd]⟩
    · cases timing
      · exact .inr (.inl ⟨r, rest, i, rfl, hd, by simp [step, hs, hd]⟩)
      · exact .inr (.inr ⟨r, rest, i, rfl, hd, by simp [step, hs, hd]⟩)
  · exact .inr (.inl ⟨t, rest, rfl, by simp [step, hs]⟩)

end Sys2Proof.Machine
end

