-- ==== Sys2Proof/Laws/Operands.lean ====
section
/-! SUPPORT. The bit ranges as numbers: shift and mask (spec/00_scope.md R9). -/

namespace Sys2Proof.Machine

theorem bits_toNat (w lo v : Nat) : (bits w lo v).toNat = (v >>> lo) % 2 ^ w := by
  simp [bits]

theorem bits_getLsbD (w lo v k : Nat) :
    (bits w lo v).getLsbD k = (decide (k < w) && v.testBit (lo + k)) := by
  simp [bits, BitVec.getLsbD_ofNat, Nat.testBit_shiftRight]

/-- A range that ends at or below `n` reads only the bits below `n`. -/
theorem bits_mod_two_pow {w lo n : Nat} (v : Nat) (h : lo + w ≤ n) : bits w lo (v % 2 ^ n) = bits w lo v := by
  apply BitVec.eq_of_getLsbD_eq
  intro k hk
  have hlt : lo + k < n := by omega
  simp [bits_getLsbD, Nat.testBit_mod_two_pow, hlt]

/-- Reading a whole vector back from its number. -/
theorem bits_toNat_zero {w : Nat} (v : BitVec w) : bits w 0 v.toNat = v := by
  simp [bits]

theorem pdu2Sel_iff (pf : Octet) : pdu2Sel pf = true ↔ 240 ≤ pf.toNat := by
  simp [pdu2Sel]

end Sys2Proof.Machine
end

