-- ==== Sys2Proof/Laws/PerInstr.lean ====
section
/-! SUPPORT. Statements made for every constructor of Instr. -/

namespace Sys2Proof.Laws.TableRow

/-- The word of a well-formed operation is selected by that operation's own row of the opcode table, and by no row tried
before it (spec/30_encoding.md R34). -/
def Statement (i : Instr) : Prop :=
  ∀ c : Config.Widths, WellFormed c i = true →
    selectedMnemonic (encodeBundle c i).1 (encodeBundle c i).2 = some (mnemonicOf i)

theorem decode (canId : Nat) : Statement (.decode canId) := by
  intro c _
  simp [selectedMnemonic, opcodeTable, TableRow.selects, encodeBundle, mnemonicOf]

theorem encode (priority pgn sourceAddress reserved : Nat) :
    Statement (.encode priority pgn sourceAddress reserved) := by
  intro c _
  simp [selectedMnemonic, opcodeTable, TableRow.selects, encodeBundle, mnemonicOf]

theorem pgnDerivePdu2 (dataPage : Bit) (pduFormat pduSpecific : Octet) :
    Statement (.pgnDerivePdu2 dataPage pduFormat pduSpecific) := by
  intro c h
  have hm := (muxBundle_mask dataPage pduFormat pduSpecific).mpr (by simpa [WellFormed] using h)
  simp [selectedMnemonic, opcodeTable, TableRow.selects, encodeBundle, mnemonicOf, List.find?, hm]

theorem pgnDerivePdu1 (dataPage : Bit) (pduFormat pduSpecific : Octet) :
    Statement (.pgnDerivePdu1 dataPage pduFormat pduSpecific) := by
  intro c h
  have hf : pduFormat.toNat < 240 := by simpa [WellFormed] using h
  have hm := mt (muxBundle_mask dataPage pduFormat pduSpecific).mp (by omega)
  simp [selectedMnemonic, opcodeTable, TableRow.selects, encodeBundle, mnemonicOf, List.find?, beq_eq_false_iff_ne.mpr hm]

end Sys2Proof.Laws.TableRow
end

