-- ==== Sys2Proof/Tests/Slice0.lean ====
section
/-! SUPPORT. The implementer's own tests. Expected results are the spec's: the words are written out from its layouts, and
the results are those of spec/95_test_vectors.md or of the rule named. -/

namespace Sys2Proof.Tests

open Sys2Proof.Machine

/-- The next state, where there is one. -/
def next (o : Host.Outcome State Fault Refusal) : Option State :=
  match o with
  | .next s => some s
  | .fault _ => none
  | .refused _ => none

/-- The refusal, where there is one. -/
def refusal (o : Host.Outcome State Fault Refusal) : Option Refusal :=
  match o with
  | .next _ => none
  | .fault _ => none
  | .refused r => some r

/-- A state after power-up in which the outside is to do `l`. -/
def doing (l : List Stimulus) : State := { State.reset with stimuli := l }

/-- A state in which every sub-block shows settled outputs: spec vectors S1, S2 and S4. -/
def busy : State :=
  { State.reset with
    decoder := { inp := 0x18FEF100, net := .settled ⟨6, 0, 0, 0xFE, 0xF1, 0x00, 0xFEF1⟩ },
    encoder := { inp := ⟨6, 0xFEEE, 0, 0⟩, net := .settled 0x18FEEE00 },
    mux := { inp := ⟨0, 0xF0, 0x12⟩, net := .settled 0xF012 } }

/-! ## WellFormed refuses an ill-formed operation, one for each check -/

theorem test_wf_decode : WellFormed Config.widths (.decode (2 ^ 32)) = false := by decide
theorem test_wf_encode_priority : WellFormed Config.widths (.encode (2 ^ 32) 0 0 0) = false := by decide
theorem test_wf_encode_pgn : WellFormed Config.widths (.encode 0 (2 ^ 32) 0 0) = false := by decide
theorem test_wf_encode_sourceAddress : WellFormed Config.widths (.encode 0 0 (2 ^ 32) 0) = false := by decide
theorem test_wf_encode_reserved : WellFormed Config.widths (.encode 0 0 0 (2 ^ 32)) = false := by decide
theorem test_wf_pdu2 : WellFormed Config.widths (.pgnDerivePdu2 0 239 0) = false := by decide
theorem test_wf_pdu1 : WellFormed Config.widths (.pgnDerivePdu1 0 240 0) = false := by decide

/-! ## Words written out bit by bit (R29, R34) decode to the operation they stand for -/

/-- S1: PPP=110 R=0 D=0 F=11111110 S=11110001 A=00000000. -/
theorem test_decode_word_DECODE :
    decodeTableWord 32 0b110_0_0_11111110_11110001_00000000 = some (.decode 0x18FEF100) := by decide

/-- S4: D=0 F=11110000 S=00010010. -/
theorem test_decode_word_PDU2 :
    decodeTableWord 24 0b0_11110000_00010010 = some (.pgnDerivePdu2 0 0xF0 0x12) := by decide

/-- 239 is the last PDU1 format: D=1 F=11101111 S=11111111. -/
theorem test_decode_word_PDU1 :
    decodeTableWord 24 0b1_11101111_11111111 = some (.pgnDerivePdu1 1 0xEF 0xFF) := by decide

/-- S2 on 32-bit ports: priority 6, pgn 0xFEEE, source_address 0, reserved 0. -/
theorem test_decode_word_ENCODE :
    decodeBundle Config.widths .encoder 0x00000006_0000FEEE_00000000_00000000 = .ok (.encode 6 0xFEEE 0 0) := by decide

set_option maxRecDepth 2000 in
/-- The same word through its 128 pins. -/
theorem test_decode_pins_ENCODE :
    decodeTableWord 128 0x00000006_0000FEEE_00000000_00000000 = some (.encode 6 0xFEEE 0 0) := by decide

/-- A bit with no wire is rejected by name: the mux has 17 pins. -/
theorem test_decode_too_wide : decodeRequest Config.widths (tableRequest 24 0x20000) = .error .wordTooWide := by decide

/-- A `pgn_derive` call with a value its port cannot carry is rejected by name. -/
theorem test_call_too_wide :
    decodeRequest Config.widths (.call (.pgnDerive 0 256 0)) = .error .wordTooWide := by decide

/-! ## One operation at a time, against the spec's vectors -/

/-- 95_test_vectors.md 2.2: PDU1, `pdu_specific` is output and is not in `pgn`. -/
theorem test_DECODE_pdu1 : (next (exec (.decode 0x0CEF2A31) State.reset)).map State.decoderOut =
    some ⟨3, 0, 0, 0xEF, 0x2A, 0x31, 0x0EF00⟩ := by decide

/-- 95_test_vectors.md 2.2: bits 31..29 are ignored; 240 would be PDU2 here. -/
theorem test_DECODE_high_bits : (next (exec (.decode 0xF8FEF100) State.reset)).map State.decoderOut =
    some ⟨6, 0, 0, 0xFE, 0xF1, 0x00, 0x0FEF1⟩ := by decide

/-- 95_test_vectors.md 2.3: a PDU1 `pgn` with a low octet, placed unchanged. -/
theorem test_ENCODE_no_branch : (next (exec (.encode 3 0xEF12 0x42 1) State.reset)).map State.encoderCanId =
    some 0x0EEF1242 := by decide

/-- 95_test_vectors.md program 3: every input out of its range. -/
theorem test_ENCODE_masks : (next (exec (.encode 9 0x3F0AB 0x1FF 2) State.reset)).map State.encoderCanId =
    some 0x05F0ABFF := by decide

/-- 95_test_vectors.md 2.1: the first PDU2 format. -/
theorem test_PDU2_boundary : (next (exec (.pgnDerivePdu2 1 0xF0 0x12) State.reset)).map State.muxPgn =
    some 0x1F012 := by decide

/-- 95_test_vectors.md 2.1: the last PDU1 format. -/
theorem test_PDU1_boundary : (next (exec (.pgnDerivePdu1 1 0xEF 0xFF) State.reset)).map State.muxPgn =
    some 0x1EF00 := by decide

/-- 95_test_vectors.md 2.1: 0xE0 has bits 7..5 set and bit 4 clear: PDU1. -/
theorem test_PDU1_E0 : (next (exec (.pgnDerivePdu1 0 0xE0 0x55) State.reset)).map State.muxPgn =
    some 0x0E000 := by decide

/-! ## Steps -/

/-- The first step after power-up runs the word placed for it (S1). -/
theorem test_step_runs_word : (next (step (State.reset.withFetchWord 32 0x18FEF100))).map State.decoderOut =
    some ⟨6, 0, 0, 0xFE, 0xF1, 0x00, 0x0FEF1⟩ := by decide

/-- S3: the three-operand call. -/
theorem test_step_runs_call :
    (next (step (doing [.present (.call (.encode 0 0x100 5 none)) .settled]))).map State.encoderCanId =
      some 0x00010005 := by decide

/-- 95_test_vectors.md 4: a negative input is refused. -/
theorem test_step_refuses_negative : refusal (step (doing [.present (.call (.decode (-1))) .settled])) =
    some (.rejected .negativeInput) := by decide

/-- R18: a high-impedance pin is refused. -/
theorem test_step_refuses_highZ :
    refusal (step (doing [.present (.pins .mux (.highZ :: List.replicate 16 .zero)) .settled])) =
      some (.rejected .unknownPin) := by decide

/-- R18: a word that drives no pin, and one that leaves one of the mux's 17 pins undriven, are refused. -/
theorem test_step_refuses_missing_pins :
    refusal (step (doing [.present (.pins .decoder []) .settled])) = some (.rejected .unknownPin) ∧
      refusal (step (doing [.present (.pins .mux (List.replicate 16 .one)) .settled])) =
        some (.rejected .unknownPin) := by decide

/-- R67: a changed input leaves the outputs to settle, although they were settled before. -/
theorem test_early_change : (next (step { busy with stimuli := [.present (.call (.decode 0)) .early] })).map
    (fun t => t.decoder.net) = some (.settling 0) := by decide

/-- R22, R67: driving the values already there changes nothing. -/
theorem test_early_same : (next (step { busy with stimuli := [.present (.call (.decode 0x18FEF100)) .early] })).map
    (fun t => t.decoder) = some busy.decoder := by decide

/-! ## Witnesses: a state and operands that meet each statement's hypotheses -/

theorem witness_StepRunsPresentedOperation :
    (doing [.present (.call (.decode 5)) .settled]).stimuli = .present (.call (.decode 5)) .settled :: [] ∧
      decodeRequest Config.widths (.call (.decode 5)) = .ok (.decode 5) := by decide

theorem witness_StepRunsFetchedTableWord : decodeTableWord 24 0xF000 = some (.pgnDerivePdu2 0 0xF0 0) := by decide

theorem witness_IdleStepChangesNoPort : busy.stimuli = [] := by decide

theorem witness_StepRefusesUnknownPins :
    (∃ p ∈ [Pin.one, .unknown], p = .unknown ∨ p = .undriven ∨ p = .highZ) ∧
      (doing [.present (.pins .mux [.one, .unknown]) .early]).stimuli =
        .present (.pins .mux [.one, .unknown]) .early :: [] := by decide

/-- One pin short, every pin of the word driven. -/
theorem witness_StepRefusesMissingPins :
    (List.replicate 16 Pin.one).length < bundleWidth Config.widths .mux ∧
      (doing [.present (.pins .mux (List.replicate 16 .one)) .settled]).stimuli =
        .present (.pins .mux (List.replicate 16 .one)) .settled :: [] := by decide

theorem witness_StepRefusesNegativeInputs :
    (∃ a ∈ (Call.encode 0 0 0 (some (-1))).arguments, a < 0) ∧
      (doing [.present (.call (.encode 0 0 0 (some (-1)))) .settled]).stimuli =
        .present (.call (.encode 0 0 0 (some (-1)))) .settled :: [] := by decide

theorem witness_DecodeFrame : ∃ t, exec (.decode 1) busy = .next t ∧ busy.encoder.net = .settled 0x18FEEE00 ∧
    busy.mux.net = .settled 0xF012 := ⟨_, rfl, rfl, rfl⟩

theorem witness_EncodeFrame : ∃ t, exec (.encode 1 2 3 0) busy = .next t ∧
    busy.decoder.net = .settled ⟨6, 0, 0, 0xFE, 0xF1, 0x00, 0xFEF1⟩ ∧ busy.mux.net = .settled 0xF012 :=
  ⟨_, rfl, rfl, rfl⟩

theorem witness_PgnDeriveFrame_pdu2 : ∃ t, exec (.pgnDerivePdu2 0 0xF0 1) busy = .next t ∧
    busy.decoder.net = .settled ⟨6, 0, 0, 0xFE, 0xF1, 0x00, 0xFEF1⟩ ∧ busy.encoder.net = .settled 0x18FEEE00 :=
  ⟨_, rfl, rfl, rfl⟩

theorem witness_PgnDeriveFrame_pdu1 : ∃ t, exec (.pgnDerivePdu1 0 0xEF 1) busy = .next t ∧
    busy.decoder.net = .settled ⟨6, 0, 0, 0xFE, 0xF1, 0x00, 0xFEF1⟩ ∧ busy.encoder.net = .settled 0x18FEEE00 :=
  ⟨_, rfl, rfl, rfl⟩

theorem witness_Pdu1DropsPduSpecificOnlyFromPgn :
    (0x0CEF2A31 >>> 16) % 256 < 240 ∧ (0x0CEF2A31 &&& 0xFFFF00FF) = (0x0CEFFF31 &&& 0xFFFF00FF) := by decide

theorem witness_29_bit_identifier : 0x1FFFFFFF < 2 ^ 29 ∧ 0 < 2 ^ 29 := by decide

theorem witness_Pdu1PgnLeavesOutPduSpecific : (239#8).toNat < 240 := by decide

theorem witness_Pdu2PgnKeepsAllInputBits : 240 ≤ (240#8).toNat ∧
    ∃ u, exec (.pgnDerivePdu2 0 240 7) State.reset = .next u ∧ u.muxPgn = 0x0F007 := ⟨by decide, _, rfl, by decide⟩

theorem witness_MuxOutputLaws :
    (∃ t, exec (.pgnDerivePdu2 1 0xF0 0x12) State.reset = .next t) ∧
      ∃ t, exec (.pgnDerivePdu1 1 0xEF 0x12) State.reset = .next t := ⟨⟨_, rfl⟩, ⟨_, rfl⟩⟩

theorem witness_PgnIsOneWay_pdu2 : muxFn ⟨1, 0xF0, 9⟩ = muxFn ⟨1, 0xF0, 9⟩ ∧
    (muxFn ⟨1, 0xF0, 9⟩).extractLsb' 12 4 = 0b1111#4 := by decide

theorem witness_PgnIsOneWay_pdu1 : muxFn ⟨1, 0xEF, 9⟩ = muxFn ⟨1, 0xEF, 8⟩ ∧
    (muxFn ⟨1, 0xEF, 9⟩).extractLsb' 12 4 ≠ 0b1111#4 := by decide

theorem witness_EncodeSplitsPgnWithoutBranch : (17 : Nat) ≤ 17 := by decide

/-- All inputs with every bit set (95_test_vectors.md 2.3), in a word of 29 and of 32 bits. -/
theorem witness_EncodeOutputStaysIn29Bits : 0x1FFFFFFF =
    ((0xFFFFFFFF &&& 0x7) <<< 26) ||| ((0xFFFFFFFF &&& 0x1) <<< 25) ||| (((0xFFFFFFFF >>> 16) &&& 0x1) <<< 24) |||
      (((0xFFFFFFFF >>> 8) &&& 0xFF) <<< 16) ||| ((0xFFFFFFFF &&& 0xFF) <<< 8) ||| (0xFFFFFFFF &&& 0xFF) ∧
    Config.wOut ≤ 29 ∧ Config.wOut ≤ 32 := by decide

theorem witness_DecodeAfterEncode :
    (240 ≤ (0x3F000 >>> 8) &&& 0xFF) ∧ ((0xEF12 >>> 8) &&& 0xFF < 240) := by decide

/-- The defaults, and every width at its minimum. -/
theorem witness_ResultsDoNotDependOnPortWidths :
    Config.widths.Admissible ∧ Config.Widths.Admissible ⟨29, 3, 17, 8, 1⟩ := by decide

theorem witness_OperationsOnDifferentSubBlocksCommute :
    (Instr.decode 1).block ≠ (Instr.encode 1 2 3 0).block ∧
      (Instr.encode 1 2 3 0).block ≠ (Instr.pgnDerivePdu2 0 240 0).block ∧
      (Instr.pgnDerivePdu1 0 0 0).block ≠ (Instr.decode 1).block := by decide

/-- A state with settled outputs in which the outside is about to present a call and look early. -/
def early (c : Call) : State := { busy with stimuli := [.present (.call c) .early] }

/-- An input that changes, on each sub-block. -/
theorem witness_EarlySampleIsFree :
    ((early (.decode 5)).stimuli = .present (.call (.decode 5)) .early :: [] ∧
      decodeRequest Config.widths (.call (.decode 5)) = .ok (.decode 5) ∧ 5 ≠ (early (.decode 5)).decoder.inp) ∧
    ((early (.encode 1 2 3 none)).stimuli = .present (.call (.encode 1 2 3 none)) .early :: [] ∧
      decodeRequest Config.widths (.call (.encode 1 2 3 none)) = .ok (.encode 1 2 3 0) ∧
      (⟨1, 2, 3, 0⟩ : EncoderIn) ≠ (early (.encode 1 2 3 none)).encoder.inp) ∧
    ((early (.pgnDerive 1 2 3)).stimuli = .present (.call (.pgnDerive 1 2 3)) .early :: [] ∧
      decodeRequest Config.widths (.call (.pgnDerive 1 2 3)) = .ok (.pgnDerivePdu1 1 2 3) ∧
      (⟨1, 2, 3⟩ : MuxIn) ≠ (early (.pgnDerive 1 2 3)).mux.inp) := by decide

/-- An undriven sub-block driven with the 0 recorded for it: the outputs are free although the recorded value is the same. -/
theorem witness_EarlySampleIsFree_undriven :
    ((doing [.present (.call (.decode 0)) .early]).stimuli = .present (.call (.decode 0)) .early :: [] ∧
      decodeRequest Config.widths (.call (.decode 0)) = .ok (.decode 0) ∧
      (doing [.present (.call (.decode 0)) .early]).decoder.inp = 0 ∧
      (doing [.present (.call (.decode 0)) .early]).decoder.net = .undriven) ∧
    ((doing [.present (.call (.encode 0 0 0 none)) .early]).stimuli =
        .present (.call (.encode 0 0 0 none)) .early :: [] ∧
      decodeRequest Config.widths (.call (.encode 0 0 0 none)) = .ok (.encode 0 0 0 0) ∧
      (doing [.present (.call (.encode 0 0 0 none)) .early]).encoder.inp = ⟨0, 0, 0, 0⟩ ∧
      (doing [.present (.call (.encode 0 0 0 none)) .early]).encoder.net = .undriven) ∧
    ((doing [.present (.call (.pgnDerive 0 0 0)) .early]).stimuli = .present (.call (.pgnDerive 0 0 0)) .early :: [] ∧
      decodeRequest Config.widths (.call (.pgnDerive 0 0 0)) = .ok (.pgnDerivePdu1 0 0 0) ∧
      (doing [.present (.call (.pgnDerive 0 0 0)) .early]).mux.inp = ⟨0, 0, 0⟩ ∧
      (doing [.present (.call (.pgnDerive 0 0 0)) .early]).mux.net = .undriven) := by decide

/-- R65, R67: that step leaves the decoder's outputs to settle. -/
theorem test_early_undriven : (next (step (doing [.present (.call (.decode 0)) .early]))).map
    (fun t => t.decoder.net) = some (.settling 0) := by decide

/-- An input that does not change, on each sub-block. -/
theorem witness_EarlySampleIsFree_same :
    busy.Carries (.decode 0x18FEF100) ∧ busy.Carries (.encode 6 0xFEEE 0 0) ∧
      busy.Carries (.pgnDerivePdu2 0 0xF0 0x12) ∧ busy.decoder.net ≠ .undriven ∧ busy.encoder.net ≠ .undriven ∧
      busy.mux.net ≠ .undriven := ⟨rfl, rfl, rfl, by decide, by decide, by decide⟩

/-- A state in which every sub-block has just had its inputs changed, and the outside waits for `T_PD`. -/
def changed : State :=
  { busy with
    decoder := { busy.decoder with net := .settling 0 }, encoder := { busy.encoder with net := .settling 0 },
    mux := { busy.mux with net := .settling 0 }, stimuli := [.wait Config.tPD] }

theorem witness_OutputsSettleAfterTPD :
    changed.stimuli = .wait Config.tPD :: [] ∧ changed.decoder.net = .settling 0 ∧
      changed.encoder.net = .settling 0 ∧ changed.mux.net = .settling 0 ∧ Config.tPD ≤ 0 + Config.tPD :=
  ⟨rfl, rfl, rfl, rfl, by omega⟩

theorem witness_WaitKeepsSettledAndUndriven :
    (doing [.wait 3]).stimuli = .wait 3 :: [] ∧ (∀ e, (doing [.wait 3]).decoder.net ≠ .settling e) ∧
      (∀ e, (doing [.wait 3]).encoder.net ≠ .settling e) ∧ ∀ e, (doing [.wait 3]).mux.net ≠ .settling e :=
  ⟨rfl, nofun, nofun, nofun⟩

theorem witness_WaitKeepsSettledAndUndriven_settled :
    ({ busy with stimuli := [.wait 3] } : State).stimuli = .wait 3 :: [] ∧
      (∀ e, busy.decoder.net ≠ .settling e) ∧ (∀ e, busy.encoder.net ≠ .settling e) ∧
      ∀ e, busy.mux.net ≠ .settling e := ⟨rfl, nofun, nofun, nofun⟩

theorem witness_StepKeepsOutputsDrivenByInputs : busy.Driven = true ∧ ∃ t, step busy = .next t :=
  ⟨by decide, _, rfl⟩

theorem witness_RunsKeepOutputsDrivenByInputs : busy.Driven = true ∧
    ∃ t, Sys2Proof.core.run 1 busy = .next t ∧ t.mux.net = .settled 0xF012 := ⟨by decide, _, rfl, rfl⟩

theorem witness_DecodeOfEncodeIsIdentity :
    WellFormed Config.widths (.decode 0xFFFFFFFF) = true ∧
      WellFormed Config.widths (.encode 0xFFFFFFFF 0xFFFFFFFF 0xFFFFFFFF 0xFFFFFFFF) = true ∧
      WellFormed Config.widths (.pgnDerivePdu2 1 240 255) = true ∧
      WellFormed Config.widths (.pgnDerivePdu1 1 239 255) = true := by decide

theorem witness_EncodeOfDecodeIsIdentity :
    decodeBundle Config.widths .mux 0x1FFFF = .ok (.pgnDerivePdu2 1 255 255) ∧
      decodeBundle Config.widths .mux 0x1EFFF = .ok (.pgnDerivePdu1 1 239 255) ∧
      decodeBundle Config.widths .decoder 0xFFFFFFFF = .ok (.decode 0xFFFFFFFF) := by decide

theorem witness_EveryDrivenWordIsAnOperation :
    (∀ p ∈ List.replicate 17 Pin.one, p = .zero ∨ p = .one) ∧
      (List.replicate 17 Pin.one).length = bundleWidth Config.widths .mux := by decide

end Sys2Proof.Tests
end

/-! ## Bit ranges, the PDU class tests and the encoder's placement of `pgn` (R32, R33, R39, R53) -/

section
namespace Sys2Proof.Machine

/-- Flipping a bit at or above the end of a range leaves the range as it was. -/
theorem bits_xor_two_pow {w lo k : Nat} (v : Nat) (h : lo + w ≤ k) : bits w lo (v ^^^ 2 ^ k) = bits w lo v := by
  apply BitVec.eq_of_getLsbD_eq
  intro i hi
  have hne : k ≠ lo + i := by omega
  simp [bits_getLsbD, Nat.testBit_xor, Nat.testBit_two_pow_of_ne hne]

/-! ### The forms of the PDU class test -/

/-- The upper half of an octet is all ones exactly from 240 up. -/
theorem extractLsb'_upper_eq_ones_iff (pf : Octet) : pf.extractLsb' 4 4 = 0b1111#4 ↔ 240 ≤ pf.toNat := by
  rw [← BitVec.toNat_inj, BitVec.extractLsb'_toNat, Nat.shiftRight_eq_div_pow, BitVec.toNat_ofNat]
  omega

/-- Identifier bits 23..20 are the upper half of its `pdu_format`. -/
theorem identifier_mask_iff (x : Nat) : x &&& 0x00F00000 = 0x00F00000 ↔ 240 ≤ (idPduFormat x).toNat := by
  rw [show (0x00F00000 : Nat) = 15 <<< 20 from rfl, and_mask_eq_iff, idPduFormat, bits_toNat,
    Nat.shiftRight_eq_div_pow]
  omega

/-- Settles O21: each form of the test is the comparison with 240. -/
theorem pduClassTestsAgree : Obligations.PduClassTestsAgree := by
  refine ⟨pdu2Sel_iff, fun pf => ?_, fun x => ?_, fun dp pf ps => ?_⟩
  · rw [pdu2Sel_iff, extractLsb'_upper_eq_ones_iff]
  · rw [pdu2Sel_iff, identifier_mask_iff]
  · rw [pdu2Sel_iff, muxBundle_mask]

/-! ### Where the parts of a packed identifier stand (R29, R30) -/

/-- A bit range is known by its number: quotient by its offset, remainder by its width (R9). -/
theorem extractLsb'_eq_of_toNat {n w lo : Nat} {v : BitVec n} {field : BitVec w}
    (h : v.toNat / 2 ^ lo % 2 ^ w = field.toNat) : v.extractLsb' lo w = field := by
  rw [← BitVec.toNat_inj, BitVec.extractLsb'_toNat, Nat.shiftRight_eq_div_pow, h]

section packed
variable (p : Priority) (r dp : Bit) (pf ps sa : Octet)

theorem packId_reserved : (packId p r dp pf ps sa).extractLsb' 25 1 = r :=
  extractLsb'_eq_of_toNat (by rw [packId_toNat]; omega)

theorem packId_dataPage : (packId p r dp pf ps sa).extractLsb' 24 1 = dp :=
  extractLsb'_eq_of_toNat (by rw [packId_toNat]; omega)

theorem packId_pduFormat : (packId p r dp pf ps sa).extractLsb' 16 8 = pf :=
  extractLsb'_eq_of_toNat (by rw [packId_toNat]; omega)

theorem packId_pduSpecific : (packId p r dp pf ps sa).extractLsb' 8 8 = ps :=
  extractLsb'_eq_of_toNat (by rw [packId_toNat]; omega)

end packed

/-! ### ENCODE -/

/-- `ENCODE` completes, and its output port shows the packed identifier (R51). -/
theorem exec_encode_shows (p g a r : Nat) (s : State) : ∃ t, exec (.encode p g a r) s = .next t ∧
    t.encoderCanId = encoderFn { priority := p, pgn := g, sourceAddress := a, reserved := r } := by
  obtain ⟨t, hexec, -, hshows, -⟩ := exec_next (.encode p g a r) s
  exact ⟨t, hexec, hshows⟩

/-- The encoder reads no bit of `pgn` from 17 up (R32). -/
theorem encoderFn_xor_pgn (x : EncoderIn) {k : Nat} (h : 17 ≤ k) :
    encoderFn { x with pgn := x.pgn ^^^ 2 ^ k } = encoderFn x := by
  have h16 : pgnDataPage (x.pgn ^^^ 2 ^ k) = pgnDataPage x.pgn := bits_xor_two_pow _ h
  have h8 : pgnPduFormat (x.pgn ^^^ 2 ^ k) = pgnPduFormat x.pgn := bits_xor_two_pow _ (by omega)
  have h0 : pgnPduSpecific (x.pgn ^^^ 2 ^ k) = pgnPduSpecific x.pgn := bits_xor_two_pow _ (by omega)
  simp only [encoderFn, h16, h8, h0]

/-- Settles O26: the packed identifier holds the parts of `pgn` and `reserved` as they were split, and the split
reads no bit of `pgn` from 17 up. -/
theorem encodeSplitsPgnWithoutBranch : Obligations.EncodeSplitsPgnWithoutBranch := by
  intro p g a r s
  obtain ⟨t, hexec, hout⟩ := exec_encode_shows p g a r s
  refine ⟨t, hexec, ?_, ?_, ?_, ?_, fun k hk => ?_⟩
  · rw [hout, encoderFn, packId_dataPage, pgnDataPage, bits]
  · rw [hout, encoderFn, packId_pduFormat, pgnPduFormat, bits]
  · rw [hout, encoderFn, packId_pduSpecific, pgnPduSpecific, bits, Nat.shiftRight_zero]
  · rw [hout, encoderFn, packId_reserved, maskReserved, bits, Nat.shiftRight_zero]
  · obtain ⟨u, huexec, huout⟩ := exec_encode_shows p (g ^^^ 2 ^ k) a r s
    exact ⟨u, huexec, huout.trans ((encoderFn_xor_pgn ⟨p, g, a, r⟩ hk).trans hout.symm)⟩

/-! ### The three-operand call -/

/-- A call of the three-operand form is the operation `encode3` (R38, R39). -/
theorem decodeCall_encode3 (c : Config.Widths) (p g a : Nat) :
    decodeCall c (.encode p g a none) = .ok (.encode3 p g a) := rfl

/-- A call of the four-operand form is `encode` with those operands (R38). -/
theorem decodeCall_encode (c : Config.Widths) (p g a r : Nat) :
    decodeCall c (.encode p g a (some (r : Int))) = .ok (.encode p g a r) := rfl

/-- Settles O28: the operation is its definition, and the two calls are read as that operation. -/
theorem threeOperandEncodeTiesReservedToZero : Obligations.ThreeOperandEncodeTiesReservedToZero := by
  intro p g a
  refine ⟨fun s => rfl, fun c => ?_⟩
  calc decodeCall c (.encode p g a none)
      = .ok (.encode3 p g a) := decodeCall_encode3 c p g a
    _ = .ok (.encode p g a 0) := rfl
    _ = decodeCall c (.encode p g a (some 0)) := (decodeCall_encode c p g a 0).symm

end Sys2Proof.Machine
end

/-! ## The mux: `pdu2_sel`, the laws of its output, and what the PGN determines (R41 to R45) -/

section
namespace Sys2Proof.Machine

/-! ### The bundle of one data page and two octets -/

section bundle
variable (dp : Bit) (pf ps : Octet)

/-- The number of the bundle, in the spec's own form: the parts shifted and joined by OR (R43). -/
theorem muxBundle_toNat_or :
    (dp ++ pf ++ ps).toNat = (dp.toNat <<< 16) ||| (pf.toNat <<< 8) ||| ps.toNat := by
  rw [BitVec.toNat_append, BitVec.toNat_append, Nat.shiftLeft_or_distrib, ← Nat.shiftLeft_add]

theorem muxBundle_dataPage : (dp ++ pf ++ ps).extractLsb' 16 1 = dp :=
  extractLsb'_eq_of_toNat (by rw [muxBundle_toNat]; omega)

theorem muxBundle_pduFormat : (dp ++ pf ++ ps).extractLsb' 8 8 = pf :=
  extractLsb'_eq_of_toNat (by rw [muxBundle_toNat]; omega)

theorem muxBundle_pduSpecific : (dp ++ pf ++ ps).extractLsb' 0 8 = ps :=
  extractLsb'_eq_of_toNat (by rw [muxBundle_toNat]; omega)

/-- Bits 15..12 of the bundle are the upper half of `pdu_format`. -/
theorem muxBundle_upper_pduFormat : (dp ++ pf ++ ps).extractLsb' 12 4 = pf.extractLsb' 4 4 :=
  extractLsb'_eq_of_toNat (by
    rw [muxBundle_toNat, BitVec.extractLsb'_toNat, Nat.shiftRight_eq_div_pow]; omega)

end bundle

/-! ### The select signal (R41) -/

theorem pdu2Sel_eq_false_iff (pf : Octet) : pdu2Sel pf = false ↔ pf.toNat < 240 := by
  rw [← Bool.not_eq_true, pdu2Sel_iff, Nat.not_le]

/-- `pdu2_sel` is the AND of the upper half of `pdu_format`. -/
theorem pdu2Sel_eq_and (pf : Octet) :
    pdu2Sel pf = (pf.getLsbD 7 && pf.getLsbD 6 && pf.getLsbD 5 && pf.getLsbD 4) := by
  have hlt := pf.isLt
  rw [Bool.eq_iff_iff, pdu2Sel_iff]
  simp only [BitVec.getLsbD, Nat.testBit_eq_decide_div_mod_eq, Bool.and_eq_true, decide_eq_true_eq]
  omega

/-! ### The output of the mux (R44) -/

/-- Both branches in one: the low octet is `pdu_specific` where `pdu2_sel` is up, and 0 where it is not. -/
theorem muxFn_eq_append (x : MuxIn) :
    muxFn x = x.dataPage ++ x.pduFormat ++ (if pdu2Sel x.pduFormat then x.pduSpecific else 0#8) := by
  cases h : pdu2Sel x.pduFormat <;> simp [muxFn, h, pgnPdu1, pgnPdu2]

theorem muxFn_dataPage (x : MuxIn) : (muxFn x).extractLsb' 16 1 = x.dataPage := by
  rw [muxFn_eq_append, muxBundle_dataPage]

theorem muxFn_pduFormat (x : MuxIn) : (muxFn x).extractLsb' 8 8 = x.pduFormat := by
  rw [muxFn_eq_append, muxBundle_pduFormat]

theorem muxFn_lowOctet (x : MuxIn) :
    (muxFn x).extractLsb' 0 8 = if pdu2Sel x.pduFormat then x.pduSpecific else 0#8 := by
  rw [muxFn_eq_append, muxBundle_pduSpecific]

/-- `pdu2_sel` can be read back from the output. -/
theorem muxFn_upper_eq_ones_iff (x : MuxIn) :
    (muxFn x).extractLsb' 12 4 = 0b1111#4 ↔ pdu2Sel x.pduFormat = true := by
  rw [muxFn_eq_append, muxBundle_upper_pduFormat, extractLsb'_upper_eq_ones_iff, pdu2Sel_iff]

/-- Exactly what a PGN determines: data page and PDU format, and in PDU2 the PDU specific too (R45). -/
theorem muxFn_eq_iff (x y : MuxIn) : muxFn x = muxFn y ↔
    x.dataPage = y.dataPage ∧ x.pduFormat = y.pduFormat ∧
      (pdu2Sel x.pduFormat = true → x.pduSpecific = y.pduSpecific) := by
  constructor
  · intro h
    have hpf : x.pduFormat = y.pduFormat := by rw [← muxFn_pduFormat, h, muxFn_pduFormat]
    refine ⟨by rw [← muxFn_dataPage, h, muxFn_dataPage], hpf, fun hsel => ?_⟩
    have hlow := muxFn_lowOctet y
    rwa [← h, muxFn_lowOctet, ← hpf, if_pos hsel, if_pos hsel] at hlow
  · rintro ⟨hdp, hpf, hps⟩
    rw [muxFn_eq_append, muxFn_eq_append, hdp, ← hpf]
    cases hsel : pdu2Sel x.pduFormat with
    | false => rfl
    | true => rw [hps hsel]

/-! ### An operation of the standalone mux -/

@[simp] theorem operateMux_inp (x : MuxIn) (s : State) : (operateMux x s).mux.inp = x := rfl
@[simp] theorem operateMux_muxPgn (x : MuxIn) (s : State) : (operateMux x s).muxPgn = muxFn x := rfl
@[simp] theorem operateMux_muxPdu2Sel (x : MuxIn) (s : State) :
    (operateMux x s).muxPdu2Sel = pdu2Sel x.pduFormat := rfl

section rows
variable (dp : Bit) (pf ps : Octet) (s : State)

theorem exec_pgnDerivePdu2 : exec (.pgnDerivePdu2 dp pf ps) s = .next (operateMux ⟨dp, pf, ps⟩ s) := rfl

theorem exec_pgnDerivePdu1 : exec (.pgnDerivePdu1 dp pf ps) s = .next (operateMux ⟨dp, pf, ps⟩ s) := rfl

end rows

/-- Either row answers with the mux operated on its operands (R33, R34). -/
theorem exec_pgnDerive_eq {dp : Bit} {pf ps : Octet} {s t : State}
    (h : exec (.pgnDerivePdu2 dp pf ps) s = .next t ∨ exec (.pgnDerivePdu1 dp pf ps) s = .next t) :
    t = operateMux ⟨dp, pf, ps⟩ s := by
  rw [exec_pgnDerivePdu2, exec_pgnDerivePdu1, or_self, Host.Outcome.next.injEq] at h
  exact h.symm

/-! ### The obligations -/

/-- Settles O16: the select signal of either row is `pdu2Sel` of its `pdu_format`, which is the comparison by definition
and the AND of the upper bits by `pdu2Sel_eq_and`. -/
theorem selectSignalIsPduFormatAtLeast240 : Obligations.SelectSignalIsPduFormatAtLeast240 := by
  intro dp pf ps s
  exact ⟨⟨_, exec_pgnDerivePdu2 dp pf ps s, rfl⟩, ⟨_, exec_pgnDerivePdu1 dp pf ps s, pdu2Sel_eq_and pf⟩⟩

/-- Settles O17: below 240 the low octet of the bundle is 0. -/
theorem pdu1PgnLeavesOutPduSpecific : Obligations.Pdu1PgnLeavesOutPduSpecific := by
  intro dp pf ps s hpf
  have hsel : pdu2Sel pf = false := (pdu2Sel_eq_false_iff pf).mpr hpf
  have hpgn : muxFn ⟨dp, pf, ps⟩ = dp ++ pf ++ 0#8 := by simp [muxFn_eq_append, hsel]
  refine ⟨_, exec_pgnDerivePdu1 dp pf ps s, rfl, hsel, ?_, hpgn, ?_⟩
  · rw [operateMux_muxPgn, hpgn, muxBundle_toNat_or, BitVec.toNat_ofNat, Nat.zero_mod, Nat.or_zero]
  · rw [operateMux_muxPgn, hpgn, muxBundle_toNat, BitVec.toNat_ofNat]
    omega

/-- Settles O18: from 240 up the bundle is whole, and `muxFn_eq_iff` makes it one-to-one. -/
theorem pdu2PgnKeepsAllInputBits : Obligations.Pdu2PgnKeepsAllInputBits := by
  intro dp pf ps s hpf
  have hsel : pdu2Sel pf = true := (pdu2Sel_iff pf).mpr hpf
  have hpgn : muxFn ⟨dp, pf, ps⟩ = dp ++ pf ++ ps := by simp [muxFn_eq_append, hsel]
  refine ⟨_, exec_pgnDerivePdu2 dp pf ps s, rfl, hsel, ?_, hpgn, ?_, ?_⟩
  · rw [operateMux_muxPgn, hpgn, muxBundle_toNat_or]
  · rw [operateMux_muxPgn, hpgn, muxBundle_toNat]
    omega
  · intro dp' pf' ps' u hu hpf' heq
    rw [exec_pgnDerive_eq (.inl hu), operateMux_muxPgn, operateMux_muxPgn, muxFn_eq_iff] at heq
    obtain ⟨hdp, hformat, hspecific⟩ := heq
    exact ⟨hdp, hformat, hspecific ((pdu2Sel_iff pf').mpr hpf')⟩

/-- Settles O19: the parts of the output are those of the bundle, and two outputs with the same `data_page` and
`pdu_format` differ exactly where PDU2 keeps different `pdu_specific`. -/
theorem muxOutputLaws : Obligations.MuxOutputLaws := by
  intro dp pf ps s t ht
  rw [exec_pgnDerive_eq ht]
  refine ⟨muxFn_eq_append _, muxFn_dataPage _, muxFn_pduFormat _, ?_, fun hpf => ?_, muxFn_upper_eq_ones_iff _, ?_⟩
  · exact Nat.le_of_lt_succ (BitVec.isLt _)
  · rw [operateMux_muxPgn, muxFn_lowOctet, (pdu2Sel_eq_false_iff pf).mpr hpf, if_neg Bool.false_ne_true]
  · intro ps' u hu
    rw [exec_pgnDerive_eq hu, operateMux_muxPgn, operateMux_muxPgn, muxFn_eq_iff, ← pdu2Sel_eq_false_iff]
    cases pdu2Sel pf <;> simp

/-- Settles O20: both directions of `muxFn_eq_iff`, with PDU2 read from bits 15..12 of the PGN. -/
theorem pgnIsOneWay : Obligations.PgnIsOneWay := by
  intro x y
  rw [Ne, muxFn_upper_eq_ones_iff]
  refine ⟨(muxFn_eq_iff x y).mp, fun hsel => ⟨?_, fun ps => ?_⟩⟩
  · rw [muxFn_lowOctet, if_neg hsel]
  · exact (muxFn_eq_iff _ x).mpr ⟨rfl, rfl, fun h => absurd h hsel⟩

end Sys2Proof.Machine
end

/-! ## The decoder: bit ranges as shifts and masks, the bits that reach no output, recombination (R46 to R49) -/

section
namespace Sys2Proof.Machine

/-! ### Bit ranges and masks (R9) -/

/-- A bit range as a number, in the form of the spec's table: shift by its offset, mask to its width. -/
theorem bits_toNat_and (w lo v : Nat) : (bits w lo v).toNat = (v >>> lo) &&& (2 ^ w - 1) := by
  rw [bits_toNat, Nat.and_two_pow_sub_one_eq_mod]

theorem bits_and (w lo x m : Nat) : bits w lo (x &&& m) = bits w lo x &&& bits w lo m := by
  simp only [bits, Nat.shiftRight_and_distrib, BitVec.ofNat_and]

/-- Numbers that agree under a mask agree in every range that the mask keeps whole. -/
theorem bits_eq_of_and_eq {w lo x y m : Nat} (hm : bits w lo m = BitVec.allOnes w) (h : x &&& m = y &&& m) :
    bits w lo x = bits w lo y := by
  calc bits w lo x = bits w lo (x &&& m) := by rw [bits_and, hm, BitVec.and_allOnes]
    _ = bits w lo (y &&& m) := by rw [h]
    _ = bits w lo y := by rw [bits_and, hm, BitVec.and_allOnes]

/-- A bit range of a vector's number is that range of the vector. -/
theorem bits_toNat_eq_extractLsb' {n : Nat} (w lo : Nat) (v : BitVec n) :
    bits w lo v.toNat = v.extractLsb' lo w := rfl

/-! ### DECODE -/

/-- `DECODE` completes, with `can_id` on its input and the seven outputs showing its function (R46). -/
theorem exec_decode_shows (x : Nat) (s : State) :
    ∃ t, exec (.decode x) s = .next t ∧ t.decoder.inp = x ∧ t.decoderOut = decoderFn x := by
  obtain ⟨t, hexec, hcarries, hshows, -⟩ := exec_next (.decode x) s
  exact ⟨t, hexec, hcarries, hshows⟩

theorem decoderOut_of_exec_decode {x : Nat} {s t : State} (h : exec (.decode x) s = .next t) :
    t.decoderOut = decoderFn x := by
  obtain ⟨t', hexec, -, hout⟩ := exec_decode_shows x s
  obtain rfl : t = t' := Host.Outcome.next.inj (h.symm.trans hexec)
  exact hout

/-! ### The PGN output as shifts and masks (R46) -/

/-- The spec's nibble test on identifier bits 23..20 is the comparison of `pdu_format` with 240 (R33). -/
theorem identifier_nibble_iff (x : Nat) : (x >>> 20) &&& 0xF = 0xF ↔ 240 ≤ (idPduFormat x).toNat := by
  rw [← identifier_mask_iff, show (0x00F00000 : Nat) = 15 <<< 20 from rfl, and_mask_eq_iff,
    ← Nat.shiftRight_eq_div_pow]
  exact Eq.congr_left (Nat.and_two_pow_sub_one_eq_mod _ 4)

/-- The number of a mux output in the spec's own form: the parts shifted and joined by OR (R44). -/
theorem muxFn_toNat_or (x : MuxIn) :
    (muxFn x).toNat = (x.dataPage.toNat <<< 16) ||| (x.pduFormat.toNat <<< 8) |||
      (if 240 ≤ x.pduFormat.toNat then x.pduSpecific.toNat else 0) := by
  rw [muxFn_eq_append, muxBundle_toNat_or]
  simp only [pdu2Sel_iff, apply_ite BitVec.toNat, BitVec.toNat_ofNat, Nat.zero_mod]

/-- Settles O9: each field is its bit range, and the mux tests the nibble by comparing `pdu_format` with 240. -/
theorem decodeUnpacksIdentifier : Obligations.DecodeUnpacksIdentifier := by
  intro x s
  obtain ⟨t, hexec, hinp, hout⟩ := exec_decode_shows x s
  have hdp : (idDataPage x).toNat = (x >>> 24) &&& 0x1 := bits_toNat_and 1 24 x
  have hpf : (idPduFormat x).toNat = (x >>> 16) &&& 0xFF := bits_toNat_and 8 16 x
  have hps : (idPduSpecific x).toNat = (x >>> 8) &&& 0xFF := bits_toNat_and 8 8 x
  refine ⟨t, hexec, hinp, ?_⟩
  rw [hout]
  refine ⟨bits_toNat_and 3 26 x, bits_toNat_and 1 25 x, hdp, hpf, hps, bits_toNat_and 8 0 x, ?_⟩
  simp only [identifier_nibble_iff, ← hdp, ← hpf, ← hps]
  exact muxFn_toNat_or (idMuxIn x)

/-! ### Bits 29 and above (R47) -/

/-- Every range that the decoder reads ends at bit 28 or below. -/
theorem decoderFn_mod (x : Nat) : decoderFn (x % 2 ^ 29) = decoderFn x := by
  simp (disch := omega) only [decoderFn, idMuxIn, idPriority, idReserved, idDataPage, idPduFormat, idPduSpecific,
    idSourceAddress, bits_mod_two_pow]

/-- Settles O11: the mask is the remainder by `2 ^ 29`, which the decoder does not see. -/
theorem decodeIgnoresBitsAbove28 : Obligations.DecodeIgnoresBitsAbove28 := by
  intro x s
  obtain ⟨t, htexec, -, htout⟩ := exec_decode_shows x s
  obtain ⟨u, huexec, -, huout⟩ := exec_decode_shows (x &&& 0x1FFFFFFF) s
  have hmask : x &&& 0x1FFFFFFF = x % 2 ^ 29 := Nat.and_two_pow_sub_one_eq_mod x 29
  refine ⟨t, u, htexec, huexec, ?_⟩
  rw [htout, huout, hmask, decoderFn_mod]

/-! ### `pdu_specific` in PDU1 (R48) -/

/-- Below 240 the low octet of the mux output is 0. -/
theorem muxFn_mod_eq_zero {x : MuxIn} (h : x.pduFormat.toNat < 240) : (muxFn x).toNat % 256 = 0 := by
  rw [muxFn_toNat, if_neg (Nat.not_le.mpr h)]
  omega

/-- In PDU1, identifiers that differ in bits 15..8 alone differ in the `pdu_specific` output alone. -/
theorem decoderFn_eq_of_pdu1 {x y : Nat} (hpdu1 : (idPduFormat x).toNat < 240)
    (h : x &&& 0xFFFF00FF = y &&& 0xFFFF00FF) :
    decoderFn x = { decoderFn y with pduSpecific := idPduSpecific x } := by
  have hp : idPriority x = idPriority y := bits_eq_of_and_eq (by decide) h
  have hr : idReserved x = idReserved y := bits_eq_of_and_eq (by decide) h
  have hdp : idDataPage x = idDataPage y := bits_eq_of_and_eq (by decide) h
  have hpf : idPduFormat x = idPduFormat y := bits_eq_of_and_eq (by decide) h
  have hsa : idSourceAddress x = idSourceAddress y := bits_eq_of_and_eq (by decide) h
  have hsel : pdu2Sel (idPduFormat x) = false := (pdu2Sel_eq_false_iff _).mpr hpdu1
  have hpgn : muxFn (idMuxIn x) = muxFn (idMuxIn y) :=
    (muxFn_eq_iff _ _).mpr ⟨hdp, hpf, fun h2 => absurd (hsel.symm.trans h2) Bool.false_ne_true⟩
  simp only [decoderFn, hp, hr, hdp, hpf, hsa, hpgn]

/-- Settles O12: the output `pdu_specific` is its bit range in both classes, and in PDU1 nothing else reads it. -/
theorem pdu1DropsPduSpecificOnlyFromPgn : Obligations.Pdu1DropsPduSpecificOnlyFromPgn := by
  intro x y s
  obtain ⟨t, htexec, -, htout⟩ := exec_decode_shows x s
  obtain ⟨u, huexec, -, huout⟩ := exec_decode_shows y s
  refine ⟨t, u, htexec, huexec, ?_⟩
  rw [htout, huout]
  refine ⟨bits_toNat 8 8 x, fun hpf hmask => ?_⟩
  have hpdu1 : (idPduFormat x).toNat < 240 := by rwa [idPduFormat, bits_toNat]
  exact ⟨decoderFn_eq_of_pdu1 hpdu1 hmask, muxFn_mod_eq_zero hpdu1⟩

/-! ### Recombination (R49) -/

section packed
variable (p : Priority) (r dp : Bit) (pf ps sa : Octet)

theorem packId_priority : (packId p r dp pf ps sa).extractLsb' 26 3 = p :=
  extractLsb'_eq_of_toNat (by rw [packId_toNat]; omega)

theorem packId_sourceAddress : (packId p r dp pf ps sa).extractLsb' 0 8 = sa :=
  extractLsb'_eq_of_toNat (by rw [packId_toNat]; omega)

/-- The number of a packed identifier, in the spec's own form: the parts shifted and joined by OR (R30). -/
theorem packId_toNat_or : (packId p r dp pf ps sa).toNat =
    (p.toNat <<< 26) ||| (r.toNat <<< 25) ||| (dp.toNat <<< 24) ||| (pf.toNat <<< 16) ||| (ps.toNat <<< 8) |||
      sa.toNat := by
  simp only [packId, BitVec.toNat_append, Nat.shiftLeft_or_distrib, ← Nat.shiftLeft_add]

/-- The decoder's six primitive outputs on a packed identifier are the fields that were packed. -/
theorem decoderFn_packId : decoderFn (packId p r dp pf ps sa).toNat =
    { priority := p, reserved := r, dataPage := dp, pduFormat := pf, pduSpecific := ps, sourceAddress := sa,
      pgn := muxFn { dataPage := dp, pduFormat := pf, pduSpecific := ps } } := by
  simp only [decoderFn, idMuxIn, idPriority, idReserved, idDataPage, idPduFormat, idPduSpecific, idSourceAddress,
    bits_toNat_eq_extractLsb', packId_priority, packId_reserved, packId_dataPage, packId_pduFormat,
    packId_pduSpecific, packId_sourceAddress]

end packed

/-- The six fields cover bits 28..0 with no gap and no overlap. -/
theorem packId_fields_toNat (x : Nat) :
    (packId (idPriority x) (idReserved x) (idDataPage x) (idPduFormat x) (idPduSpecific x)
      (idSourceAddress x)).toNat = x % 2 ^ 29 := by
  rw [packId_toNat]
  simp only [idPriority, idReserved, idDataPage, idPduFormat, idPduSpecific, idSourceAddress, bits_toNat,
    Nat.shiftRight_eq_div_pow]
  omega

/-- Settles O14: packing the decoder's six fields gives `can_id` back, and decoding a packed identifier gives the
fields back, so each is the other's inverse on 29 bits; `2 ^ 29` more changes no output. -/
theorem primitiveFieldsRecombine : Obligations.PrimitiveFieldsRecombine := by
  refine ⟨fun x s hx => ?_, fun p r dp pf ps sa s => ?_, fun x s => ?_⟩
  · obtain ⟨t, hexec, -, hout⟩ := exec_decode_shows x s
    refine ⟨t, hexec, ?_⟩
    rw [hout, ← packId_toNat_or]
    exact (packId_fields_toNat x).trans (Nat.mod_eq_of_lt hx)
  · obtain ⟨t, hexec, -, hout⟩ := exec_decode_shows (packId p r dp pf ps sa).toNat s
    rw [decoderFn_packId] at hout
    refine ⟨_, (packId p r dp pf ps sa).isLt, ⟨t, hexec, by simp [hout]⟩, ?_⟩
    rintro y hy ⟨u, hu, rfl, rfl, rfl, rfl, rfl, rfl⟩
    rw [decoderOut_of_exec_decode hu]
    exact ((packId_fields_toNat y).trans (Nat.mod_eq_of_lt hy)).symm
  · obtain ⟨t, htexec, -, htout⟩ := exec_decode_shows x s
    obtain ⟨u, huexec, -, huout⟩ := exec_decode_shows (x + 2 ^ 29) s
    refine ⟨t, u, htexec, huexec, ?_⟩
    rw [htout, huout, ← decoderFn_mod, Nat.add_mod_right, decoderFn_mod]

end Sys2Proof.Machine
end

/-! ## The encoder: masking and placing the parts, and the round trips with the decoder (R51, R52, R54 to R56) -/

section
namespace Sys2Proof.Machine

/-! ### The masked inputs and the parts of `pgn` as numbers (R32, R51) -/

@[simp] theorem maskPriority_toNat (p : Nat) : (maskPriority p).toNat = p &&& 0x7 := bits_toNat_and 3 0 p
@[simp] theorem maskReserved_toNat (r : Nat) : (maskReserved r).toNat = r &&& 0x1 := bits_toNat_and 1 0 r
@[simp] theorem maskSourceAddress_toNat (a : Nat) : (maskSourceAddress a).toNat = a &&& 0xFF := bits_toNat_and 8 0 a
@[simp] theorem pgnDataPage_toNat (g : Nat) : (pgnDataPage g).toNat = (g >>> 16) &&& 0x1 := bits_toNat_and 1 16 g
@[simp] theorem pgnPduFormat_toNat (g : Nat) : (pgnPduFormat g).toNat = (g >>> 8) &&& 0xFF := bits_toNat_and 8 8 g
@[simp] theorem pgnPduSpecific_toNat (g : Nat) : (pgnPduSpecific g).toNat = g &&& 0xFF := bits_toNat_and 8 0 g

/-! ### Packing (R51, R30) -/

section packing
variable (p g a r : Nat)

/-- The packed identifier as a number: the masked parts, shifted and joined by OR. -/
theorem encoderFn_toNat_or : (encoderFn ⟨p, g, a, r⟩).toNat =
    ((p &&& 0x7) <<< 26) ||| ((r &&& 0x1) <<< 25) ||| (((g >>> 16) &&& 0x1) <<< 24) |||
      (((g >>> 8) &&& 0xFF) <<< 16) ||| ((g &&& 0xFF) <<< 8) ||| (a &&& 0xFF) := by
  simp only [encoderFn, packId_toNat_or, maskPriority_toNat, maskReserved_toNat, pgnDataPage_toNat,
    pgnPduFormat_toNat, pgnPduSpecific_toNat, maskSourceAddress_toNat]

/-- The same number by addition: no two parts share a bit. -/
theorem encoderFn_toNat_add : (encoderFn ⟨p, g, a, r⟩).toNat =
    ((p &&& 0x7) <<< 26) + ((r &&& 0x1) <<< 25) + (((g >>> 16) &&& 0x1) <<< 24) +
      (((g >>> 8) &&& 0xFF) <<< 16) + ((g &&& 0xFF) <<< 8) + (a &&& 0xFF) := by
  simp only [encoderFn, packId_toNat, maskPriority_toNat, maskReserved_toNat, pgnDataPage_toNat,
    pgnPduFormat_toNat, pgnPduSpecific_toNat, maskSourceAddress_toNat, Nat.shiftLeft_eq]

end packing

/-- Settles O23: the operands stay on the inputs, and the number of the packed identifier has both forms. -/
theorem encodePacksMaskedFields : Obligations.EncodePacksMaskedFields := by
  intro p g a r s
  obtain ⟨t, hexec, hcarries, hshows, -⟩ := exec_next (.encode p g a r) s
  have hout : t.encoderCanId = encoderFn ⟨p, g, a, r⟩ := hshows
  refine ⟨t, hexec, hcarries, ?_⟩
  rw [hout]
  exact ⟨encoderFn_toNat_or p g a r, encoderFn_toNat_add p g a r⟩

/-! ### The masking law (R52) -/

/-- A mask that keeps a range whole does not change what the range reads. -/
theorem bits_and_of_allOnes {w lo m : Nat} (x : Nat) (hm : bits w lo m = BitVec.allOnes w) :
    bits w lo (x &&& m) = bits w lo x := by
  rw [bits_and, hm, BitVec.and_allOnes]

/-- Masking `priority`, `source_address` and `reserved` twice is masking them once. -/
theorem encoderFn_mask (p g a r : Nat) :
    encoderFn ⟨p &&& 0x7, g, a &&& 0xFF, r &&& 0x1⟩ = encoderFn ⟨p, g, a, r⟩ := by
  have hp : maskPriority (p &&& 0x7) = maskPriority p := bits_and_of_allOnes p (by decide)
  have ha : maskSourceAddress (a &&& 0xFF) = maskSourceAddress a := bits_and_of_allOnes a (by decide)
  have hr : maskReserved (r &&& 0x1) = maskReserved r := bits_and_of_allOnes r (by decide)
  simp only [encoderFn, hp, ha, hr]

/-- Every part of `pgn` lies in its low 17 bits. -/
theorem encoderFn_mask_pgn (p g a r : Nat) : encoderFn ⟨p, g &&& 0x1FFFF, a, r⟩ = encoderFn ⟨p, g, a, r⟩ := by
  have hdp : pgnDataPage (g &&& 0x1FFFF) = pgnDataPage g := bits_and_of_allOnes g (by decide)
  have hpf : pgnPduFormat (g &&& 0x1FFFF) = pgnPduFormat g := bits_and_of_allOnes g (by decide)
  have hps : pgnPduSpecific (g &&& 0x1FFFF) = pgnPduSpecific g := bits_and_of_allOnes g (by decide)
  simp only [encoderFn, hdp, hpf, hps]

/-- Settles O25: the packed identifier is the same function value on the masked inputs. -/
theorem encodeMaskingLaw : Obligations.EncodeMaskingLaw := by
  intro p g a r s
  obtain ⟨t, htexec, htout⟩ := exec_encode_shows p g a r s
  obtain ⟨u, huexec, huout⟩ := exec_encode_shows (p &&& 0x7) g (a &&& 0xFF) (r &&& 0x1) s
  obtain ⟨v, hvexec, hvout⟩ := exec_encode_shows p (g &&& 0x1FFFF) a r s
  refine ⟨t, u, v, htexec, huexec, hvexec, ?_, ?_⟩
  · rw [huout, htout, encoderFn_mask]
  · rw [hvout, htout, encoderFn_mask_pgn]

/-! ### The identifier in a wider word (R54) -/

theorem carriedIn_toNat {w : Nat} (h : 29 ≤ w) (canId : CanId) : (carriedIn w canId).toNat = canId.toNat :=
  BitVec.toNat_setWidth_of_le h

theorem carriedIn_getLsbD_of_ge {k : Nat} (w : Nat) (canId : CanId) (h : 29 ≤ k) :
    (carriedIn w canId).getLsbD k = false := by
  rw [carriedIn, BitVec.getLsbD_setWidth, BitVec.getLsbD_of_ge canId k h, Bool.and_false]

/-- Settles O27: the number of the masked parts is that of a 29-bit value, which a wider word carries whole. -/
theorem encodeOutputStaysIn29Bits : Obligations.EncodeOutputStaysIn29Bits := by
  refine ⟨rfl, fun p g a r n s hn => ?_⟩
  rw [← encoderFn_toNat_or] at hn
  obtain ⟨t, hexec, hout⟩ := exec_encode_shows p g a r s
  rw [hn, ← hout]
  exact ⟨Nat.le_of_lt_succ t.encoderCanId.isLt, t, hexec, rfl, fun w hw =>
    ⟨carriedIn_toNat hw _, fun k => carriedIn_getLsbD_of_ge w _⟩⟩

/-! ### Decode after encode (R55) -/

/-- What the decoder's mux is given of an encoded `pgn`: its three parts. -/
def pgnMuxIn (g : Nat) : MuxIn :=
  { dataPage := pgnDataPage g, pduFormat := pgnPduFormat g, pduSpecific := pgnPduSpecific g }

/-- The decoder reads back the masked inputs, and derives its PGN from the parts of the encoder's `pgn`. -/
theorem decoderFn_encoderFn (p g a r : Nat) : decoderFn (encoderFn ⟨p, g, a, r⟩).toNat =
    { priority := maskPriority p, reserved := maskReserved r, dataPage := pgnDataPage g, pduFormat := pgnPduFormat g,
      pduSpecific := pgnPduSpecific g, sourceAddress := maskSourceAddress a, pgn := muxFn (pgnMuxIn g) } :=
  decoderFn_packId ..

/-- In PDU2 the PGN that comes back is the low 17 bits of the one that went in. -/
theorem muxFn_pgnMuxIn_of_pdu2 {g : Nat} (h : 240 ≤ (g >>> 8) &&& 0xFF) :
    (muxFn (pgnMuxIn g)).toNat = g &&& 0x1FFFF := by
  have hpf : 240 ≤ (pgnMuxIn g).pduFormat.toNat := by rwa [pgnMuxIn, pgnPduFormat_toNat]
  rw [muxFn_toNat, if_pos hpf, show g &&& 0x1FFFF = g % 2 ^ 17 from Nat.and_two_pow_sub_one_eq_mod g 17]
  simp only [pgnMuxIn, pgnDataPage, pgnPduFormat, pgnPduSpecific, bits_toNat, Nat.shiftRight_eq_div_pow]
  omega

/-- In PDU1 the PGN that comes back is the data page and the PDU format alone. -/
theorem muxFn_pgnMuxIn_of_pdu1 {g : Nat} (h : (g >>> 8) &&& 0xFF < 240) :
    (muxFn (pgnMuxIn g)).toNat = (((g >>> 16) &&& 0x1) <<< 16) ||| (((g >>> 8) &&& 0xFF) <<< 8) := by
  have hpf : ¬ 240 ≤ (pgnMuxIn g).pduFormat.toNat := by rwa [pgnMuxIn, pgnPduFormat_toNat, Nat.not_le]
  rw [muxFn_toNat_or, if_neg hpf, Nat.or_zero, pgnMuxIn, pgnDataPage_toNat, pgnPduFormat_toNat]

/-- Exactly which `pgn` inputs do not come back: those above 17 bits, and in PDU1 those with a low octet. -/
theorem muxFn_pgnMuxIn_ne_iff (g : Nat) : (muxFn (pgnMuxIn g)).toNat ≠ g ↔
    2 ^ 17 ≤ g ∨ ((g >>> 8) &&& 0xFF < 240 ∧ g &&& 0xFF ≠ 0) := by
  have hlow : g &&& 0xFF = g % 2 ^ 8 := Nat.and_two_pow_sub_one_eq_mod g 8
  have hmid : (g >>> 8) &&& 0xFF = g / 2 ^ 8 % 2 ^ 8 := by
    rw [← Nat.shiftRight_eq_div_pow]; exact Nat.and_two_pow_sub_one_eq_mod _ 8
  rw [muxFn_toNat, hlow, hmid]
  simp only [pgnMuxIn, pgnDataPage, pgnPduFormat, pgnPduSpecific, bits_toNat, Nat.shiftRight_eq_div_pow]
  split <;> omega

/-- Settles O29: the decoder reads back the parts that the encoder masked, and its mux chooses between the two forms
of the PGN. -/
theorem decodeAfterEncode : Obligations.DecodeAfterEncode := by
  intro p g a r s
  obtain ⟨t, htexec, htout⟩ := exec_encode_shows p g a r s
  obtain ⟨u, huexec, -, huout⟩ := exec_decode_shows t.encoderCanId.toNat t
  refine ⟨t, u, htexec, huexec, ?_⟩
  rw [huout, htout, decoderFn_encoderFn]
  exact ⟨maskPriority_toNat p, maskReserved_toNat r, maskSourceAddress_toNat a, pgnDataPage_toNat g,
    pgnPduFormat_toNat g, pgnPduSpecific_toNat g, muxFn_pgnMuxIn_of_pdu2, muxFn_pgnMuxIn_of_pdu1,
    muxFn_pgnMuxIn_ne_iff g⟩

/-! ### Encode after decode (R56) -/

/-- The identifier that the encoder makes of the decoder's outputs: the same fields, with `pdu_specific` as the mux
let it through. -/
theorem encoderFn_decoderFn (x : Nat) :
    encoderFn ⟨(decoderFn x).priority.toNat, (decoderFn x).pgn.toNat, (decoderFn x).sourceAddress.toNat,
        (decoderFn x).reserved.toNat⟩ =
      packId (idPriority x) (idReserved x) (idDataPage x) (idPduFormat x)
        (if pdu2Sel (idPduFormat x) then idPduSpecific x else 0#8) (idSourceAddress x) := by
  simp only [encoderFn, decoderFn, maskPriority, maskReserved, maskSourceAddress, pgnDataPage, pgnPduFormat,
    pgnPduSpecific, bits_toNat_eq_extractLsb', BitVec.extractLsb'_eq_self, muxFn_dataPage, muxFn_pduFormat,
    muxFn_lowOctet, idMuxIn]

/-- The fields packed with 0 for `pdu_specific` are the identifier with bits 15..8 cleared. -/
theorem packId_clear_pduSpecific (x : Nat) :
    (packId (idPriority x) (idReserved x) (idDataPage x) (idPduFormat x) 0#8 (idSourceAddress x)).toNat =
      x &&& 0x1FFF00FF := by
  have hp : idPriority (x &&& 0x1FFF00FF) = idPriority x := bits_and_of_allOnes x (by decide)
  have hr : idReserved (x &&& 0x1FFF00FF) = idReserved x := bits_and_of_allOnes x (by decide)
  have hdp : idDataPage (x &&& 0x1FFF00FF) = idDataPage x := bits_and_of_allOnes x (by decide)
  have hpf : idPduFormat (x &&& 0x1FFF00FF) = idPduFormat x := bits_and_of_allOnes x (by decide)
  have hsa : idSourceAddress (x &&& 0x1FFF00FF) = idSourceAddress x := bits_and_of_allOnes x (by decide)
  have hps : idPduSpecific (x &&& 0x1FFF00FF) = 0#8 := by
    rw [idPduSpecific, bits_and, show bits 8 8 0x1FFF00FF = 0#8 by decide, BitVec.and_zero]
  have hlt : x &&& 0x1FFF00FF < 2 ^ 29 := Nat.and_lt_two_pow x (by decide)
  rw [← hp, ← hr, ← hdp, ← hpf, ← hps, ← hsa, packId_fields_toNat, Nat.mod_eq_of_lt hlt]

/-- Settles O30: in PDU2 all six fields are packed again, and in PDU1 all but `pdu_specific`. -/
theorem encodeAfterDecode : Obligations.EncodeAfterDecode := by
  intro x s hx
  obtain ⟨t, htexec, -, htout⟩ := exec_decode_shows x s
  obtain ⟨u, huexec, huout⟩ := exec_encode_shows t.decoderOut.priority.toNat t.decoderOut.pgn.toNat
    t.decoderOut.sourceAddress.toNat t.decoderOut.reserved.toNat t
  refine ⟨t, u, htexec, huexec, ?_⟩
  rw [huout, htout, encoderFn_decoderFn]
  simp only [identifier_nibble_iff, pdu2Sel_iff]
  split
  · rw [packId_fields_toNat, Nat.mod_eq_of_lt hx]
  · exact packId_clear_pduSpecific x

end Sys2Proof.Machine
end

/-! ## Exceptions: every operation completes and gives the output of its rule (R57) -/

section
namespace Sys2Proof.Machine

/-- Settles O7: the clauses of `exec_next` on completion, inputs and outputs (R57). -/
theorem everyOperationGivesItsOutput : Obligations.EveryOperationGivesItsOutput := by
  intro i s
  obtain ⟨t, hexec, hcarries, hshows, -⟩ := exec_next i s
  exact ⟨t, hexec, hcarries, hshows⟩

end Sys2Proof.Machine
end

/-! ## Words and operations: the round trips, and which row a word selects (R33 to R35, R38, R39) -/

section
namespace Sys2Proof

open Sys2Proof.Machine

/-! ### The number on a sub-block's pins -/

@[simp] theorem encodeBundle_fst (c : Config.Widths) (i : Instr) : (encodeBundle c i).1 = i.block := by
  cases i <;> rfl

/-- The parts of a number cut at `m` lie below `k` and `m` when the number fits both. -/
theorem div_lt_and_mod_lt {n k m : Nat} (h : n < k * m) : n / m < k ∧ n % m < m := by
  have hm : 0 < m := Nat.pos_of_ne_zero (by rintro rfl; simp at h)
  exact ⟨(Nat.div_lt_iff_lt_mul hm).mpr h, Nat.mod_lt n hm⟩

/-- A number of two digits, `q` below `k` and `r` below `m`. -/
theorem mul_add_lt_mul {q k r m : Nat} (hq : q < k) (hr : r < m) : q * m + r < k * m := by
  rw [Nat.mul_comm q m]
  exact Nat.mul_add_lt_mul_of_lt_of_lt hq hr

/-- The encoder's bundle is cut into its four ports, one remainder at a time. -/
theorem decodeEncoderBundle_eq (c : Config.Widths) (n : Nat) : decodeEncoderBundle c n =
    .encode (n / 2 ^ c.wRsv / 2 ^ c.wSa / 2 ^ c.wPgn) (n / 2 ^ c.wRsv / 2 ^ c.wSa % 2 ^ c.wPgn)
      (n / 2 ^ c.wRsv % 2 ^ c.wSa) (n % 2 ^ c.wRsv) := by
  have hcut : n / 2 ^ (c.wSa + c.wRsv) = n / 2 ^ c.wRsv / 2 ^ c.wSa := by
    rw [Nat.div_div_eq_div_mul, ← Nat.pow_add, Nat.add_comm]
  have htop : n / 2 ^ (c.wPgn + (c.wSa + c.wRsv)) = n / 2 ^ (c.wSa + c.wRsv) / 2 ^ c.wPgn := by
    rw [Nat.div_div_eq_div_mul, ← Nat.pow_add, Nat.add_comm]
  rw [decodeEncoderBundle, htop, hcut]

theorem two_pow_bundleWidth_encoder (c : Config.Widths) :
    2 ^ bundleWidth c .encoder = 2 ^ c.wPrio * 2 ^ c.wPgn * 2 ^ c.wSa * 2 ^ c.wRsv := by
  simp only [bundleWidth, Nat.pow_add, Nat.mul_assoc]

theorem wellFormed_encode_iff (c : Config.Widths) (p g a r : Nat) : WellFormed c (.encode p g a r) = true ↔
    p < 2 ^ c.wPrio ∧ g < 2 ^ c.wPgn ∧ a < 2 ^ c.wSa ∧ r < 2 ^ c.wRsv := by
  simp [WellFormed, and_assoc]

/-- A number that fits the encoder's pins is the word of the operation read from it, and every operand fits its port. -/
theorem encodeBundle_decodeEncoderBundle {c : Config.Widths} {n : Nat} (h : n < 2 ^ bundleWidth c .encoder) :
    WellFormed c (decodeEncoderBundle c n) = true ∧ encodeBundle c (decodeEncoderBundle c n) = (.encoder, n) := by
  rw [two_pow_bundleWidth_encoder] at h
  obtain ⟨h, hr⟩ := div_lt_and_mod_lt h
  obtain ⟨h, ha⟩ := div_lt_and_mod_lt h
  obtain ⟨hp, hg⟩ := div_lt_and_mod_lt h
  rw [decodeEncoderBundle_eq]
  exact ⟨(wellFormed_encode_iff ..).mpr ⟨hp, hg, ha, hr⟩, by simp only [encodeBundle, Nat.div_add_mod']⟩

/-- The encoder's four operands are read back from their bundle. -/
theorem decodeEncoderBundle_encode {c : Config.Widths} {p g a r : Nat} (hg : g < 2 ^ c.wPgn) (ha : a < 2 ^ c.wSa)
    (hr : r < 2 ^ c.wRsv) :
    decodeEncoderBundle c (((p * 2 ^ c.wPgn + g) * 2 ^ c.wSa + a) * 2 ^ c.wRsv + r) = .encode p g a r := by
  simp only [decodeEncoderBundle_eq, split_mul_add hr, split_mul_add ha, split_mul_add hg]

/-- The mux's three operands are read back from their bundle, on the row that `pdu_format` selects (R33, R34). -/
theorem decodeMuxBundle_toNat (dp : Bit) (pf ps : Octet) : decodeMuxBundle (dp ++ pf ++ ps).toNat =
    if 240 ≤ pf.toNat then .pgnDerivePdu2 dp pf ps else .pgnDerivePdu1 dp pf ps := by
  have hdp : BitVec.ofNat 1 ((dp ++ pf ++ ps).toNat >>> 16) = dp := muxBundle_dataPage dp pf ps
  have hpf : BitVec.ofNat 8 ((dp ++ pf ++ ps).toNat >>> 8) = pf := muxBundle_pduFormat dp pf ps
  have hps : BitVec.ofNat 8 (dp ++ pf ++ ps).toNat = ps := muxBundle_pduSpecific dp pf ps
  simp only [decodeMuxBundle, muxBundle_mask, hdp, hpf, hps]

/-- Every number on the mux's 17 pins is the bundle of its three parts. -/
theorem exists_muxBundle_toNat_eq {n : Nat} (h : n < 2 ^ 17) :
    ∃ (dp : Bit) (pf ps : Octet), n = (dp ++ pf ++ ps).toNat := by
  refine ⟨BitVec.ofNat 1 (n / 2 ^ 16), BitVec.ofNat 8 (n / 2 ^ 8), BitVec.ofNat 8 n, ?_⟩
  simp only [muxBundle_toNat, BitVec.toNat_ofNat]
  omega

/-- Both rows of the mux have the same words, told apart by `pdu_format`. -/
theorem encodeBundle_decodeMuxBundle (c : Config.Widths) {n : Nat} (h : n < 2 ^ 17) :
    WellFormed c (decodeMuxBundle n) = true ∧ encodeBundle c (decodeMuxBundle n) = (.mux, n) := by
  obtain ⟨dp, pf, ps, rfl⟩ := exists_muxBundle_toNat_eq h
  rw [decodeMuxBundle_toNat]
  split
  next hpf => exact ⟨decide_eq_true hpf, rfl⟩
  next hpf => exact ⟨decide_eq_true (Nat.not_le.mp hpf), rfl⟩

/-! ### What a number on the pins stands for (R34, R35) -/

section numbers
variable (c : Config.Widths) {n : Nat}

theorem decodeBundle_decoder (h : n < 2 ^ bundleWidth c .decoder) : decodeBundle c .decoder n = .ok (.decode n) :=
  if_pos h

theorem decodeBundle_encoder (h : n < 2 ^ bundleWidth c .encoder) :
    decodeBundle c .encoder n = .ok (decodeEncoderBundle c n) :=
  if_pos h

theorem decodeBundle_mux (h : n < 2 ^ bundleWidth c .mux) : decodeBundle c .mux n = .ok (decodeMuxBundle n) :=
  if_pos h

theorem decodeBundle_of_not_lt {b : SubBlock} (h : ¬ n < 2 ^ bundleWidth c b) :
    decodeBundle c b n = .error .wordTooWide :=
  if_neg h

end numbers

theorem lt_of_decodeBundle_eq_ok {c : Config.Widths} {b : SubBlock} {n : Nat} {i : Instr}
    (h : decodeBundle c b n = .ok i) : n < 2 ^ bundleWidth c b := by
  by_contra hge
  rw [decodeBundle_of_not_lt c hge] at h
  contradiction

/-! ### The round trips -/

/-- A number that fits a sub-block's pins is the word of a well-formed operation. -/
theorem decodeBundle_of_lt {c : Config.Widths} {b : SubBlock} {n : Nat} (h : n < 2 ^ bundleWidth c b) :
    ∃ i, decodeBundle c b n = .ok i ∧ WellFormed c i = true ∧ encodeBundle c i = (b, n) := by
  cases b with
  | decoder => exact ⟨_, decodeBundle_decoder c h, decide_eq_true h, rfl⟩
  | encoder => exact ⟨_, decodeBundle_encoder c h, encodeBundle_decodeEncoderBundle h⟩
  | mux => exact ⟨_, decodeBundle_mux c h, encodeBundle_decodeMuxBundle c h⟩

/-- Settles O42: the word fits the pins, and each sub-block's parts make the word again. -/
theorem encodeOfDecodeIsIdentity : Obligations.EncodeOfDecodeIsIdentity := by
  intro c b n i h
  obtain ⟨j, hj, hback⟩ := decodeBundle_of_lt (lt_of_decodeBundle_eq_ok h)
  obtain rfl : i = j := Except.ok.inj (h.symm.trans hj)
  exact hback

/-- The word of a well-formed operation fits its sub-block's pins. -/
theorem encodeBundle_lt {c : Config.Widths} {i : Instr} (h : WellFormed c i = true) :
    (encodeBundle c i).2 < 2 ^ bundleWidth c i.block := by
  cases i with
  | decode x => exact of_decide_eq_true h
  | encode p g a r =>
    obtain ⟨hp, hg, ha, hr⟩ := (wellFormed_encode_iff c p g a r).mp h
    rw [Instr.block, two_pow_bundleWidth_encoder]
    exact mul_add_lt_mul (mul_add_lt_mul (mul_add_lt_mul hp hg) ha) hr
  | pgnDerivePdu2 dp pf ps => exact (dp ++ pf ++ ps).isLt
  | pgnDerivePdu1 dp pf ps => exact (dp ++ pf ++ ps).isLt

/-- A well-formed operation is read back from its word. -/
theorem decodeBundle_encodeBundle {c : Config.Widths} {i : Instr} (h : WellFormed c i = true) :
    decodeBundle c i.block (encodeBundle c i).2 = .ok i := by
  have hlt := encodeBundle_lt h
  cases i with
  | decode x => exact decodeBundle_decoder c hlt
  | encode p g a r =>
    obtain ⟨-, hg, ha, hr⟩ := (wellFormed_encode_iff c p g a r).mp h
    exact (decodeBundle_encoder c hlt).trans (congrArg _ (decodeEncoderBundle_encode hg ha hr))
  | pgnDerivePdu2 dp pf ps =>
    have hpf : 240 ≤ pf.toNat := of_decide_eq_true h
    exact (decodeBundle_mux c hlt).trans (congrArg _ ((decodeMuxBundle_toNat dp pf ps).trans (if_pos hpf)))
  | pgnDerivePdu1 dp pf ps =>
    have hpf : ¬ 240 ≤ pf.toNat := Nat.not_le.mpr (of_decide_eq_true h)
    exact (decodeBundle_mux c hlt).trans (congrArg _ ((decodeMuxBundle_toNat dp pf ps).trans (if_neg hpf)))

/-- Settles O41: the pins carry the operation's word, which fits them, and the word is read back. -/
theorem decodeOfEncodeIsIdentity : Obligations.DecodeOfEncodeIsIdentity := by
  intro c i h
  rw [encode, encodeBundle_fst, decodeRequest_pinsOf c le_rfl (encodeBundle_lt h), decodeBundle_encodeBundle h]


/-! ### Which row a word selects (R34) -/

/-- A four-bit field moved down and masked is all ones exactly when the mask moved up meets the number in full. -/
theorem nibble_eq_ones_iff (n k : Nat) : (n >>> k) &&& 0xF = 0xF ↔ n &&& (15 <<< k) = 15 <<< k := by
  rw [and_mask_eq_iff, ← Nat.shiftRight_eq_div_pow]
  exact Eq.congr_left (Nat.and_two_pow_sub_one_eq_mod _ 4)

theorem selectedMnemonic_encodeBundle (c : Config.Widths) {i : Instr} (h : WellFormed c i = true) :
    selectedMnemonic (encodeBundle c i).1 (encodeBundle c i).2 = some (mnemonicOf i) := by
  cases i with
  | decode x => exact Laws.TableRow.decode x c h
  | encode p g a r => exact Laws.TableRow.encode p g a r c h
  | pgnDerivePdu2 dp pf ps => exact Laws.TableRow.pgnDerivePdu2 dp pf ps c h
  | pgnDerivePdu1 dp pf ps => exact Laws.TableRow.pgnDerivePdu1 dp pf ps c h

/-- The row of a word of the mux by bits 15..12. -/
theorem mnemonicOf_decodeMuxBundle (n : Nat) : mnemonicOf (decodeMuxBundle n) =
    if (n >>> 12) &&& 0xF = 0xF then "PGN_DERIVE.PDU2" else "PGN_DERIVE.PDU1" := by
  rw [decodeMuxBundle, ← show (15 <<< 12 : Nat) = 0x0F000 from rfl, apply_ite mnemonicOf]
  simp only [nibble_eq_ones_iff, mnemonicOf]

/-- Settles O44: a word that decodes is the word of its operation, which that operation's row selects first. -/
theorem firstSelectingRowDecides : Obligations.FirstSelectingRowDecides := by
  intro c b n i h
  obtain ⟨hwf, hword⟩ := encodeOfDecodeIsIdentity c b n i h
  refine ⟨by simpa only [hword] using selectedMnemonic_encodeBundle c hwf, ?_⟩
  rintro rfl
  obtain rfl : decodeMuxBundle n = i :=
    Except.ok.inj ((decodeBundle_mux c (lt_of_decodeBundle_eq_ok h)).symm.trans h)
  rw [mnemonicOf_decodeMuxBundle]
  by_cases hnibble : (n >>> 12) &&& 0xF = 0xF <;> simp [hnibble]

/-! ### Words of zeros and ones (R35) -/

theorem exists_level_of_zero_or_one {p : Pin} (h : p = .zero ∨ p = .one) : ∃ l, p.level = some l := by
  obtain rfl | rfl := h
  · exact ⟨false, rfl⟩
  · exact ⟨true, rfl⟩

/-- Driven pins carry a number of as many bits. -/
theorem exists_pinsValue_lt {word : List Pin} (h : ∀ p ∈ word, p = .zero ∨ p = .one) :
    ∃ n < 2 ^ word.length, pinsValue word = some n := by
  induction word with
  | nil => exact ⟨0, Nat.one_pos, rfl⟩
  | cons p ps ih =>
    obtain ⟨hp, hps⟩ := List.forall_mem_cons.mp h
    obtain ⟨l, hl⟩ := exists_level_of_zero_or_one hp
    obtain ⟨n, hn, hv⟩ := ih hps
    refine ⟨l.toNat + 2 * n, ?_, by simp only [pinsValue, hl, hv]⟩
    have hbit := l.toNat_lt
    rw [List.length_cons, Nat.pow_succ]
    omega

theorem decodeRequest_pins_of_value (c : Config.Widths) {b : SubBlock} {word : List Pin} {n : Nat}
    (hlen : bundleWidth c b ≤ word.length) (hv : pinsValue word = some n) :
    decodeRequest c (.pins b word) = decodeBundle c b n := by
  simp only [decodeRequest, Nat.not_lt.mpr hlen, hv, if_false]

/-- Settles O43: the pins carry a number that fits them, and every such number is an operation. -/
theorem everyDrivenWordIsAnOperation : Obligations.EveryDrivenWordIsAnOperation := by
  intro c b word hdriven hlen
  obtain ⟨n, hn, hv⟩ := exists_pinsValue_lt hdriven
  rw [hlen] at hn
  obtain ⟨i, hi, -, hword⟩ := decodeBundle_of_lt hn
  refine ⟨i, (decodeRequest_pins_of_value c hlen.ge hv).trans hi, ?_⟩
  rw [← encodeBundle_fst c, hword]

/-! ### Calls (R38, R39) -/

/-- A call of `pgn_derive` with values that its ports can carry presents their bundle. -/
theorem decodeCall_pgnDerive (c : Config.Widths) (dp : Bit) (pf ps : Octet) :
    decodeCall c (.pgnDerive dp.toNat pf.toNat ps.toNat) = decodeBundle c .mux (dp ++ pf ++ ps).toNat := by
  rw [muxBundle_toNat]
  exact if_pos ⟨dp.isLt, pf.isLt, ps.isLt⟩

/-- Settles O6: naturals pass unchanged, and the mux reads its bundle on the row of its `pdu_format`. -/
theorem callsInDomainAreOperations : Obligations.CallsInDomainAreOperations := by
  intro c
  refine ⟨fun x => rfl, fun p g a r => decodeCall_encode c p g a r, fun p g a => decodeCall_encode3 c p g a,
    fun dp pf ps => ?_⟩
  rw [decodeRequest, decodeCall_pgnDerive, decodeBundle_mux c (dp ++ pf ++ ps).isLt, decodeMuxBundle_toNat]

/-- Settles O46: each word is decoded as it stands. -/
theorem writtenOutWordsDecode : Obligations.WrittenOutWordsDecode := by
  unfold Obligations.WrittenOutWordsDecode
  decide

end Sys2Proof
end

/-! ## What the outputs show, by what their wires carry; the frames of the operations (R14, R65, R67) -/

section
namespace Sys2Proof.Machine

/-! ### Samples -/

section samples
variable {s t : State} {e : Nat}

theorem decoderOut_of_settled {v : DecoderOut} (h : s.decoder.net = .settled v) : s.decoderOut = v := by
  rw [State.decoderOut, h, Net.sample_settled]

theorem encoderCanId_of_settled {v : CanId} (h : s.encoder.net = .settled v) : s.encoderCanId = v := by
  rw [State.encoderCanId, h, Net.sample_settled]

theorem muxPgn_of_settled {v : Pgn} (h : s.mux.net = .settled v) : s.muxPgn = v := by
  rw [State.muxPgn, h, Net.sample_settled]

theorem decoderPdu2Sel_of_settled {v : DecoderOut} (h : s.decoder.net = .settled v) :
    s.decoderPdu2Sel = pdu2Sel (idPduFormat s.decoder.inp) := by
  simp only [State.decoderPdu2Sel, h]

theorem muxPdu2Sel_of_settled {v : Pgn} (h : s.mux.net = .settled v) : s.muxPdu2Sel = pdu2Sel s.mux.inp.pduFormat := by
  simp only [State.muxPdu2Sel, h]

/-- While the decoder settles, its outputs and its internal select are free (R67). -/
theorem decoder_free_of_settling (h : s.decoder.net = .settling e) :
    s.decoderOut = Config.freeDecoderOut s.instant ∧ s.decoderPdu2Sel = Config.freeDecoderSel s.instant := by
  simp only [State.decoderOut, State.decoderPdu2Sel, h, Net.sample_settling, and_self]

/-- While the encoder settles, its output is free (R67). -/
theorem encoder_free_of_settling (h : s.encoder.net = .settling e) : s.encoderCanId = Config.freeCanId s.instant := by
  rw [State.encoderCanId, h, Net.sample_settling]

/-- While the standalone mux settles, its output and its internal select are free (R67). -/
theorem mux_free_of_settling (h : s.mux.net = .settling e) :
    s.muxPgn = Config.freePgn s.instant ∧ s.muxPdu2Sel = Config.freeMuxSel s.instant := by
  simp only [State.muxPgn, State.muxPdu2Sel, h, Net.sample_settling, and_self]

/-! The same ports with settled outputs show the same values, at whatever instant. -/

theorem decoder_sample_congr (h : t.decoder = s.decoder) {v : DecoderOut} (hv : s.decoder.net = .settled v) :
    t.decoderOut = s.decoderOut ∧ t.decoderPdu2Sel = s.decoderPdu2Sel := by
  have ht : t.decoder.net = .settled v := by rw [h, hv]
  rw [decoderOut_of_settled ht, decoderOut_of_settled hv, decoderPdu2Sel_of_settled ht, decoderPdu2Sel_of_settled hv, h]
  exact ⟨rfl, rfl⟩

theorem encoder_sample_congr (h : t.encoder = s.encoder) {v : CanId} (hv : s.encoder.net = .settled v) :
    t.encoderCanId = s.encoderCanId := by
  rw [encoderCanId_of_settled hv, encoderCanId_of_settled (h ▸ hv)]

theorem mux_sample_congr (h : t.mux = s.mux) {v : Pgn} (hv : s.mux.net = .settled v) :
    t.muxPgn = s.muxPgn ∧ t.muxPdu2Sel = s.muxPdu2Sel := by
  have ht : t.mux.net = .settled v := by rw [h, hv]
  rw [muxPgn_of_settled ht, muxPgn_of_settled hv, muxPdu2Sel_of_settled ht, muxPdu2Sel_of_settled hv, h]
  exact ⟨rfl, rfl⟩

end samples

/-- Settles O1: each clause is the power-up state read off. -/
theorem powerUpLeavesEveryOutputFree : Obligations.PowerUpLeavesEveryOutputFree :=
  ⟨rfl, rfl, rfl, rfl, rfl, rfl, rfl, rfl, rfl⟩

/-! ### Frames -/

/-- The frame of any operation: the ports of the other sub-blocks and the stimuli stay, and the sampling instant moves
on by one. -/
theorem exec_frame {i : Instr} {s t : State} (h : exec i s = .next t) :
    s.SameBut i.block t ∧ t.stimuli = s.stimuli ∧ t.instant = s.instant + 1 := by
  obtain ⟨u, hu, -, -, hframe⟩ := exec_next i s
  obtain rfl : t = u := Host.Outcome.next.inj (h.symm.trans hu)
  exact hframe

/-- Settles O10: the encoder's and the mux's ports stay, so their settled outputs do. -/
theorem decodeFrame : Obligations.DecodeFrame := by
  intro x s t h
  obtain ⟨⟨-, hencoder, hmux⟩, hstimuli, hinstant⟩ := exec_frame h
  have hencoder := hencoder nofun
  have hmux := hmux nofun
  exact ⟨hencoder, hmux, hstimuli, hinstant, fun _ => encoder_sample_congr hencoder, fun _ => mux_sample_congr hmux⟩

/-- Settles O22: the decoder's and the encoder's ports stay, so their settled outputs do. -/
theorem pgnDeriveFrame : Obligations.PgnDeriveFrame := by
  intro dp pf ps s t h
  rw [exec_pgnDerivePdu1, ← exec_pgnDerivePdu2, or_self] at h
  obtain ⟨⟨hdecoder, hencoder, -⟩, hstimuli, hinstant⟩ := exec_frame h
  have hdecoder := hdecoder nofun
  have hencoder := hencoder nofun
  exact ⟨hdecoder, hencoder, hstimuli, hinstant, fun _ => decoder_sample_congr hdecoder,
    fun _ => encoder_sample_congr hencoder⟩

/-- Settles O24: the decoder's and the mux's ports stay, so their settled outputs do. -/
theorem encodeFrame : Obligations.EncodeFrame := by
  intro p g a r s t h
  obtain ⟨⟨hdecoder, -, hmux⟩, hstimuli, hinstant⟩ := exec_frame h
  have hdecoder := hdecoder nofun
  have hmux := hmux nofun
  exact ⟨hdecoder, hmux, hstimuli, hinstant, fun _ => decoder_sample_congr hdecoder, fun _ => mux_sample_congr hmux⟩

end Sys2Proof.Machine
end

/-! ## The step: what it does with each stimulus, and which requests it refuses (R18, R57) -/

section
namespace Sys2Proof.Machine

section stimuli
variable {s : State} {rest : List Stimulus} {r : Request} {i : Instr}

theorem step_idle (h : s.stimuli = []) : step s = .next s.tick := by
  simp only [step, h]

theorem step_wait {time : Nat} (h : s.stimuli = .wait time :: rest) : step s = .next (s.advance.wait time) := by
  simp only [step, h]

theorem step_rejected {tm : Timing} {why : Reject} (h : s.stimuli = .present r tm :: rest)
    (hd : decodeRequest Config.widths r = .error why) : step s = .refused (.rejected why) := by
  simp only [step, h, hd]

theorem step_settled (h : s.stimuli = .present r .settled :: rest) (hd : decodeRequest Config.widths r = .ok i) :
    step s = exec i s.advance := by
  simp only [step, h, hd]

theorem step_early (h : s.stimuli = .present r .early :: rest) (hd : decodeRequest Config.widths r = .ok i) :
    step s = .next (presentEarly i s.advance) := by
  simp only [step, h, hd]

theorem advance_eq {a : Stimulus} (h : s.stimuli = a :: rest) : s.advance = { s with stimuli := rest } := by
  rw [State.advance, h, List.tail_cons]

end stimuli

/-- Settles O2: the step runs the operation on the advanced state, which is the state without the request. -/
theorem stepRunsPresentedOperation : Obligations.StepRunsPresentedOperation := by
  intro s r rest i h hd
  rw [step_settled h hd, advance_eq h]

/-- A word that decodes as a word of the table is a request for that operation. -/
theorem decodeRequest_of_decodeTableWord {nbits w : Nat} {i : Instr} (h : decodeTableWord nbits w = some i) :
    decodeRequest Config.widths (tableRequest nbits w) = .ok i := by
  rw [decodeTableWord] at h
  cases hd : decodeRequest Config.widths (tableRequest nbits w) with
  | error why => simp [hd, Except.toOption] at h
  | ok j => simpa [hd, Except.toOption] using h

/-- Settles O3: the placed word is the head of the stimuli, and taking it off leaves the state it was placed in. -/
theorem stepRunsFetchedTableWord : Obligations.StepRunsFetchedTableWord := by
  intro s nbits w i h
  exact step_settled (s := s.withFetchWord nbits w) rfl (decodeRequest_of_decodeTableWord h)

/-- Settles O4: the idle step is a tick. -/
theorem idleStepChangesNoPort : Obligations.IdleStepChangesNoPort := by
  intro s h
  exact ⟨s.tick, step_idle h, rfl, rfl, rfl, h⟩

/-- A step answers with a next state, except on a request that decodes to no operation. -/
theorem step_next_or_rejected (s : State) : (∃ t, step s = .next t) ∨
    ∃ r tm rest why, s.stimuli = .present r tm :: rest ∧ decodeRequest Config.widths r = .error why ∧
      step s = .refused (.rejected why) := by
  obtain ⟨-, h⟩ | ⟨_, _, -, h⟩ | h | ⟨_, _, i, -, -, h⟩ | ⟨_, _, _, -, -, h⟩ := step_cases s
  · exact .inl ⟨_, h⟩
  · exact .inl ⟨_, h⟩
  · exact .inr h
  · obtain ⟨t, ht, -⟩ := exec_next i s.advance
    exact .inl ⟨t, h.trans ht⟩
  · exact .inl ⟨_, h⟩

/-- Settles O8: the two answers of `step_next_or_rejected` leave no fault and no other refusal. -/
theorem stepRefusesOnlyRejectedRequests : Obligations.StepRefusesOnlyRejectedRequests := by
  intro s
  refine ⟨nofun, fun why => ⟨fun h => ?_, ?_⟩⟩
  · obtain ⟨t, ht⟩ | ⟨r, tm, rest, e, hs, hd, hstep⟩ := step_next_or_rejected s
    · exact absurd (ht.symm.trans h) nofun
    · exact ⟨r, tm, rest, e, hs, hd, Host.Outcome.refused.inj (h.symm.trans hstep)⟩
  · rintro ⟨r, tm, rest, e, hs, hd, rfl⟩
    exact step_rejected hs hd

/-! ### Negative integers (R18) -/

/-- A computation that starts with an integer is refused as negative if the integer is, or else if the rest is. -/
theorem natural_bind_refused {α : Type} {x : Int} {f : Nat → Except Reject α}
    (h : ¬ x < 0 → ∀ n, f n = .error .negativeInput) : (natural x >>= f) = .error .negativeInput := by
  by_cases hx : x < 0
  · rw [natural_of_neg hx]
    rfl
  · obtain ⟨n, rfl⟩ := Int.eq_ofNat_of_zero_le (Int.not_lt.mp hx)
    exact h hx n

/-- A call with a negative integer among its arguments is refused by name: the arguments are read in order, before
anything else is checked. -/
theorem decodeCall_negative (c : Config.Widths) {k : Call} (h : ∃ a ∈ k.arguments, a < 0) :
    decodeCall c k = .error .negativeInput := by
  cases k with
  | decode x =>
    exact natural_bind_refused fun hx => absurd (by simpa [Call.arguments] using h) hx
  | encode p g a r =>
    refine natural_bind_refused fun hp _ => natural_bind_refused fun hg _ => natural_bind_refused fun ha _ => ?_
    cases r with
    | none => simp [Call.arguments, hp, hg, ha] at h
    | some r =>
      exact natural_bind_refused fun hr => by simp [Call.arguments, hp, hg, ha, hr] at h
  | pgnDerive d f s =>
    exact natural_bind_refused fun hd _ => natural_bind_refused fun hf _ => natural_bind_refused fun hs =>
      by simp [Call.arguments, hd, hf, hs] at h

/-- Settles O5: such words and calls decode to no operation, at whatever timing. -/
theorem stepRefusesUnknownAndNegativeInputs : Obligations.StepRefusesUnknownAndNegativeInputs := by
  intro s rest tm
  exact ⟨fun b word hword hs => step_rejected hs (decodeRequest_pins_refused Config.widths hword.symm),
    fun c hc hs => step_rejected hs (decodeCall_negative Config.widths hc)⟩

end Sys2Proof.Machine
end

/-! ## What an operation drives, settling, and the invariant of settled outputs (R14, R22, R24, R65, R67) -/

section
namespace Sys2Proof.Machine

/-! ### The sub-block that an operation drives, and with what -/

/-- `i` is the operation that drives the decoder's input with `x`. -/
structure DrivesDecoder (i : Instr) (x : Nat) : Prop where
  block : i.block = .decoder
  carries : ∀ s : State, s.Carries i ↔ s.decoder.inp = x
  exec_eq : ∀ s : State, exec i s = .next (s.mapDecoder (Ports.operate decoderFn x)).tick
  early_eq : ∀ s : State, presentEarly i s = (s.mapDecoder (Ports.change x)).tick

/-- `i` is the operation that drives the encoder's inputs with `x`. -/
structure DrivesEncoder (i : Instr) (x : EncoderIn) : Prop where
  block : i.block = .encoder
  carries : ∀ s : State, s.Carries i ↔ s.encoder.inp = x
  exec_eq : ∀ s : State, exec i s = .next (s.mapEncoder (Ports.operate encoderFn x)).tick
  early_eq : ∀ s : State, presentEarly i s = (s.mapEncoder (Ports.change x)).tick

/-- `i` is an operation that drives the standalone mux's inputs with `x`. -/
structure DrivesMux (i : Instr) (x : MuxIn) : Prop where
  block : i.block = .mux
  carries : ∀ s : State, s.Carries i ↔ s.mux.inp = x
  exec_eq : ∀ s : State, exec i s = .next (s.mapMux (Ports.operate muxFn x)).tick
  early_eq : ∀ s : State, presentEarly i s = (s.mapMux (Ports.change x)).tick

/-- Every operation drives exactly one sub-block; both rows of the mux drive it alike. -/
theorem drives_cases (i : Instr) :
    (∃ x, DrivesDecoder i x) ∨ (∃ x, DrivesEncoder i x) ∨ ∃ x, DrivesMux i x := by
  cases i with
  | decode x => exact .inl ⟨x, rfl, fun _ => .rfl, fun _ => rfl, fun _ => rfl⟩
  | encode p g a r => exact .inr (.inl ⟨⟨p, g, a, r⟩, rfl, fun _ => .rfl, fun _ => rfl, fun _ => rfl⟩)
  | pgnDerivePdu2 dp pf ps => exact .inr (.inr ⟨⟨dp, pf, ps⟩, rfl, fun _ => .rfl, fun _ => rfl, fun _ => rfl⟩)
  | pgnDerivePdu1 dp pf ps => exact .inr (.inr ⟨⟨dp, pf, ps⟩, rfl, fun _ => .rfl, fun _ => rfl, fun _ => rfl⟩)

/-! ### The invariant: a settled output is the function of the inputs (R14) -/

/-! Neither `tick` nor `advance` touches a port, so `s.tick.Driven` and `s.advance.Driven` are `s.Driven` by
unfolding. -/

section driven
variable {s : State}

theorem State.mapDecoder_driven {g : Ports Nat DecoderOut → Ports Nat DecoderOut} (h : s.Driven = true)
    (hg : s.decoder.Driven decoderFn = true → (g s.decoder).Driven decoderFn = true) :
    (s.mapDecoder g).Driven = true := by
  obtain ⟨hdecoder, hencoder, hmux⟩ := s.driven_iff.mp h
  exact (State.driven_iff _).mpr ⟨hg hdecoder, hencoder, hmux⟩

theorem State.mapEncoder_driven {g : Ports EncoderIn CanId → Ports EncoderIn CanId} (h : s.Driven = true)
    (hg : s.encoder.Driven encoderFn = true → (g s.encoder).Driven encoderFn = true) :
    (s.mapEncoder g).Driven = true := by
  obtain ⟨hdecoder, hencoder, hmux⟩ := s.driven_iff.mp h
  exact (State.driven_iff _).mpr ⟨hdecoder, hg hencoder, hmux⟩

theorem State.mapMux_driven {g : Ports MuxIn Pgn → Ports MuxIn Pgn} (h : s.Driven = true)
    (hg : s.mux.Driven muxFn = true → (g s.mux).Driven muxFn = true) : (s.mapMux g).Driven = true := by
  obtain ⟨hdecoder, hencoder, hmux⟩ := s.driven_iff.mp h
  exact (State.driven_iff _).mpr ⟨hdecoder, hencoder, hg hmux⟩

theorem exec_driven {i : Instr} {t : State} (h : s.Driven = true) (ht : exec i s = .next t) : t.Driven = true := by
  obtain ⟨x, hi⟩ | ⟨x, hi⟩ | ⟨x, hi⟩ := drives_cases i <;> rw [hi.exec_eq] at ht <;> cases ht
  · exact State.mapDecoder_driven h fun _ => Ports.operate_driven ..
  · exact State.mapEncoder_driven h fun _ => Ports.operate_driven ..
  · exact State.mapMux_driven h fun _ => Ports.operate_driven ..

theorem presentEarly_driven (i : Instr) (h : s.Driven = true) : (presentEarly i s).Driven = true := by
  obtain ⟨x, hi⟩ | ⟨x, hi⟩ | ⟨x, hi⟩ := drives_cases i <;> rw [hi.early_eq]
  · exact State.mapDecoder_driven h (Ports.change_driven x)
  · exact State.mapEncoder_driven h (Ports.change_driven x)
  · exact State.mapMux_driven h (Ports.change_driven x)

theorem State.wait_driven (time : Nat) (h : s.Driven = true) : (s.wait time).Driven = true := by
  obtain ⟨hdecoder, hencoder, hmux⟩ := s.driven_iff.mp h
  exact (State.driven_iff _).mpr
    ⟨Ports.wait_driven time hdecoder, Ports.wait_driven time hencoder, Ports.wait_driven time hmux⟩

end driven

/-- Settles O38: each thing that a step can do keeps the invariant. -/
theorem stepKeepsOutputsDrivenByInputs : Obligations.StepKeepsOutputsDrivenByInputs := by
  intro s t hs ht
  obtain ⟨-, h⟩ | ⟨time, -, -, h⟩ | ⟨_, _, _, _, -, -, h⟩ | ⟨_, _, i, -, -, h⟩ | ⟨_, _, i, -, -, h⟩ := step_cases s <;>
    rw [h] at ht
  · cases ht
    exact hs
  · cases ht
    exact State.wait_driven time hs
  · cases ht
  · exact exec_driven (s := s.advance) hs ht
  · cases ht
    exact presentEarly_driven i (s := s.advance) hs

/-- Settles O39: after power-up nothing is settled. -/
theorem powerUpIsDriven : Obligations.PowerUpIsDriven := rfl

/-- What every step keeps, every run keeps. -/
theorem run_keeps {P : State → Prop} (hstep : ∀ s t, P s → step s = .next t → P t) {k : Nat} {s t : State}
    (hs : P s) (ht : Sys2Proof.core.run k s = .next t) : P t := by
  induction k generalizing s with
  | zero =>
    cases ht
    exact hs
  | succ k ih =>
    obtain ⟨u, hu⟩ | ⟨_, _, _, _, -, -, hu⟩ := step_next_or_rejected s
    · exact ih (hstep s u hs hu) (by simpa [Host.Core.run, Sys2Proof.core, hu] using ht)
    · simp [Host.Core.run, Sys2Proof.core, hu] at ht

theorem Ports.eq_of_driven {ι α : Type} [DecidableEq α] {f : ι → α} {b : Ports ι α} (h : b.Driven f = true) {v : α}
    (hv : b.net = .settled v) : v = f b.inp := by
  simpa [Ports.Driven, hv] using h

/-- Settles O40: the invariant holds at the end of the run, and a settled output shows what it carries. -/
theorem runsKeepOutputsDrivenByInputs : Obligations.RunsKeepOutputsDrivenByInputs := by
  intro k s t hs ht
  obtain ⟨hdecoder, hencoder, hmux⟩ := t.driven_iff.mp (run_keeps stepKeepsOutputsDrivenByInputs hs ht)
  exact ⟨fun v hv => (decoderOut_of_settled hv).trans (Ports.eq_of_driven hdecoder hv),
    fun v hv => (encoderCanId_of_settled hv).trans (Ports.eq_of_driven hencoder hv),
    fun v hv => (muxPgn_of_settled hv).trans (Ports.eq_of_driven hmux hv)⟩

/-! ### Repetition, order and earlier inputs (R11, R22, R24, R65) -/

/-- Settles O32: the second run drives the values already there. -/
theorem operationsAreIdempotent : Obligations.OperationsAreIdempotent := by
  intro i s
  obtain ⟨x, hi⟩ | ⟨x, hi⟩ | ⟨x, hi⟩ := drives_cases i <;>
    exact ⟨_, _, hi.exec_eq s, hi.exec_eq _, rfl, rfl, rfl⟩

/-- Settles O33: the updates of two different fields of the state commute. -/
theorem operationsOnDifferentSubBlocksCommute : Obligations.OperationsOnDifferentSubBlocksCommute := by
  intro i j s hne
  obtain ⟨x, hi⟩ | ⟨x, hi⟩ | ⟨x, hi⟩ := drives_cases i <;>
    obtain ⟨y, hj⟩ | ⟨y, hj⟩ | ⟨y, hj⟩ := drives_cases j
  case inl.inl | inr.inl.inr.inl | inr.inr.inr.inr => exact absurd (hi.block.trans hj.block.symm) hne
  all_goals exact ⟨_, _, _, hi.exec_eq s, hj.exec_eq _, hj.exec_eq s, hi.exec_eq _⟩

/-- Settles O34: the operation writes both ports of its sub-block, and the settled outputs do not depend on the
instant. -/
theorem earlierInputsDoNotMatter : Obligations.EarlierInputsDoNotMatter := by
  intro s s' i
  obtain ⟨x, hi⟩ | ⟨x, hi⟩ | ⟨x, hi⟩ := drives_cases i <;>
    refine ⟨_, _, hi.exec_eq s, hi.exec_eq s', ?_⟩ <;> rw [hi.block]
  · exact ⟨fun _ => ⟨rfl, rfl, rfl⟩, nofun, nofun⟩
  · exact ⟨nofun, fun _ => ⟨rfl, rfl⟩, nofun⟩
  · exact ⟨nofun, nofun, fun _ => ⟨rfl, rfl, rfl⟩⟩

/-! ### An early sample (R67) -/

section change
variable {ι α : Type} [DecidableEq ι] {b : Ports ι α} {x : ι}

theorem Ports.change_net_of_changed (h : (b.change x).inp ≠ b.inp ∨ b.net = .undriven) :
    (b.change x).net = .settling 0 := by
  rw [Ports.change_inp] at h
  obtain ⟨hx, hnet, -⟩ | ⟨-, hchange⟩ := b.change_cases x
  · exact absurd h (by simp [hx, hnet])
  · rw [hchange]

theorem Ports.change_of_same (hx : b.inp = x) (hnet : b.net ≠ .undriven) : b.change x = b := by
  obtain ⟨-, -, hchange⟩ | ⟨h, -⟩ := b.change_cases x
  · exact hchange
  · exact absurd h (by simp [hx, hnet])

end change

/-- Settles O35: a change of the driven sub-block's inputs leaves its outputs to settle, hence free. -/
theorem earlySampleIsFree : Obligations.EarlySampleIsFree := by
  intro s r rest i hs hd
  refine ⟨_, step_early hs hd, ?_⟩
  rw [advance_eq hs]
  obtain ⟨x, hi⟩ | ⟨x, hi⟩ | ⟨x, hi⟩ := drives_cases i <;>
    simp only [hi.early_eq, hi.carries, hi.block, State.SameBut]
  · refine ⟨Ports.change_inp .., rfl, ⟨nofun, fun _ => rfl, fun _ => rfl⟩, fun _ h => ?_, nofun, nofun,
      fun hx => ⟨fun _ => Ports.change_of_same hx, nofun, nofun⟩⟩
    have hnet := Ports.change_net_of_changed h
    exact ⟨hnet, decoder_free_of_settling hnet⟩
  · refine ⟨Ports.change_inp .., rfl, ⟨fun _ => rfl, nofun, fun _ => rfl⟩, nofun, fun _ h => ?_, nofun,
      fun hx => ⟨nofun, fun _ => Ports.change_of_same hx, nofun⟩⟩
    have hnet := Ports.change_net_of_changed h
    exact ⟨hnet, encoder_free_of_settling hnet⟩
  · refine ⟨Ports.change_inp .., rfl, ⟨fun _ => rfl, fun _ => rfl, nofun⟩, nofun, nofun, fun _ h => ?_,
      fun hx => ⟨nofun, nofun, fun _ => Ports.change_of_same hx⟩⟩
    have hnet := Ports.change_net_of_changed h
    exact ⟨hnet, mux_free_of_settling hnet⟩

/-! ### A wait (R14, R67) -/

@[simp] theorem State.wait_decoder (s : State) (time : Nat) : (s.wait time).decoder = s.decoder.wait decoderFn time :=
  rfl
@[simp] theorem State.wait_encoder (s : State) (time : Nat) : (s.wait time).encoder = s.encoder.wait encoderFn time :=
  rfl
@[simp] theorem State.wait_mux (s : State) (time : Nat) : (s.wait time).mux = s.mux.wait muxFn time := rfl

section wait
variable {ι α : Type} {f : ι → α} {b : Ports ι α} {e time : Nat}

theorem Ports.wait_net_of_le (h : b.net = .settling e) (hle : Config.tPD ≤ e + time) :
    (b.wait f time).net = .settled (f b.inp) := by
  simp [Ports.wait, h, hle]

theorem Ports.wait_net_of_not_le (h : b.net = .settling e) (hle : ¬ Config.tPD ≤ e + time) :
    (b.wait f time).net = .settling (e + time) := by
  simp [Ports.wait, h, hle]

theorem Ports.wait_of_not_settling (h : ∀ e, b.net ≠ .settling e) : b.wait f time = b := by
  obtain ⟨-, hwait⟩ | ⟨e, he, -⟩ | ⟨e, he, -⟩ := b.wait_cases f time
  · exact hwait
  · exact absurd he (h e)
  · exact absurd he (h e)

end wait

/-- Settles O36: after `T_PD` the wires carry the function of the inputs, and before it they are still settling. -/
theorem outputsSettleAfterTPD : Obligations.OutputsSettleAfterTPD := by
  intro s time rest hs
  refine ⟨_, step_wait hs, by simp [State.wait, hs], Ports.wait_inp .., Ports.wait_inp .., Ports.wait_inp ..,
    fun e h => ?_, fun e h => ?_, fun e h => ?_⟩ <;> split
  next hle =>
    have hnet : (s.advance.wait time).decoder.net = _ := Ports.wait_net_of_le h hle
    refine ⟨decoderOut_of_settled hnet, ?_⟩
    rw [decoderPdu2Sel_of_settled hnet, State.wait_decoder, Ports.wait_inp, State.advance_decoder]
  next hle =>
    have hnet : (s.advance.wait time).decoder.net = _ := Ports.wait_net_of_not_le h hle
    exact and_assoc.mp ⟨decoder_free_of_settling hnet, hnet⟩
  next hle => exact encoderCanId_of_settled (Ports.wait_net_of_le h hle)
  next hle =>
    have hnet : (s.advance.wait time).encoder.net = _ := Ports.wait_net_of_not_le h hle
    exact ⟨encoder_free_of_settling hnet, hnet⟩
  next hle =>
    have hnet : (s.advance.wait time).mux.net = _ := Ports.wait_net_of_le h hle
    refine ⟨muxPgn_of_settled hnet, ?_⟩
    rw [muxPdu2Sel_of_settled hnet, State.wait_mux, Ports.wait_inp, State.advance_mux]
  next hle =>
    have hnet : (s.advance.wait time).mux.net = _ := Ports.wait_net_of_not_le h hle
    exact and_assoc.mp ⟨mux_free_of_settling hnet, hnet⟩

/-- Settles O37: a wait changes only ports that are settling. -/
theorem waitKeepsSettledAndUndriven : Obligations.WaitKeepsSettledAndUndriven := by
  intro s time rest hs
  exact ⟨_, step_wait hs, Ports.wait_of_not_settling, Ports.wait_of_not_settling, Ports.wait_of_not_settling⟩

end Sys2Proof.Machine
end

/-! ## Which bits reach which outputs, at every port width (R5, R9, R17, R35) -/

section
namespace Sys2Proof.Machine

/-- Settles O45: `bits_toNat_and`, for every width, offset and value (R9). -/
theorem bitRangeIsShiftAndMask : Obligations.BitRangeIsShiftAndMask := bits_toNat_and

/-! ### The reserved bit (R35) -/

/-- Flipping a bit below a range leaves the range as it was. -/
theorem bits_xor_two_pow_of_lt {w lo k : Nat} (v : Nat) (h : k < lo) : bits w lo (v ^^^ 2 ^ k) = bits w lo v := by
  apply BitVec.eq_of_getLsbD_eq
  intro i hi
  have hne : k ≠ lo + i := by omega
  simp [bits_getLsbD, Nat.testBit_xor, Nat.testBit_two_pow_of_ne hne]

/-- Flipping the one bit of a range complements the range. -/
theorem bits_one_xor_two_pow (lo v : Nat) : bits 1 lo (v ^^^ 2 ^ lo) = ~~~ bits 1 lo v := by
  apply BitVec.eq_of_getLsbD_eq
  intro i hi
  obtain rfl : i = 0 := by omega
  simp only [BitVec.getLsbD_not, bits_getLsbD, Nat.testBit_xor, Nat.add_zero, Nat.testBit_two_pow_self, Bool.xor_true,
    Nat.one_pos, decide_true, Bool.true_and]

/-- Bit 25 lies in the range of the reserved output, and in no other range. -/
theorem decoderFn_xor_reserved (x : Nat) :
    decoderFn (x ^^^ 2 ^ 25) = { decoderFn x with reserved := ~~~ (decoderFn x).reserved } := by
  have hp : idPriority (x ^^^ 2 ^ 25) = idPriority x := bits_xor_two_pow_of_lt x (by omega)
  have hr : idReserved (x ^^^ 2 ^ 25) = ~~~ idReserved x := bits_one_xor_two_pow 25 x
  have hdp : idDataPage (x ^^^ 2 ^ 25) = idDataPage x := bits_xor_two_pow x (by omega)
  have hpf : idPduFormat (x ^^^ 2 ^ 25) = idPduFormat x := bits_xor_two_pow x (by omega)
  have hps : idPduSpecific (x ^^^ 2 ^ 25) = idPduSpecific x := bits_xor_two_pow x (by omega)
  have hsa : idSourceAddress (x ^^^ 2 ^ 25) = idSourceAddress x := bits_xor_two_pow x (by omega)
  simp only [decoderFn, idMuxIn, hp, hr, hdp, hpf, hps, hsa]

/-- Settles O13: every 29-bit value fits the decoder's 32 pins, and the six other outputs do not read bit 25. -/
theorem reservedBitReachesOnlyItsOutput : Obligations.ReservedBitReachesOnlyItsOutput := by
  intro x hx
  have hpins : x < 2 ^ bundleWidth Config.widths .decoder := hx.trans (by decide)
  refine ⟨decodeBundle_decoder Config.widths hpins, fun s => ?_⟩
  obtain ⟨t, htexec, -, htout⟩ := exec_decode_shows x s
  obtain ⟨u, huexec, -, huout⟩ := exec_decode_shows (x ^^^ 2 ^ 25) s
  refine ⟨t, u, htexec, huexec, ?_⟩
  rw [huout, htout, decoderFn_xor_reserved]

/-! ### The decoder's own mux and the standalone mux (R17) -/

/-- The bundle of the mux's parts, on whichever row it falls, is an operation with those parts as operands. -/
theorem exec_decodeMuxBundle (dp : Bit) (pf ps : Octet) (s : State) :
    exec (decodeMuxBundle (dp ++ pf ++ ps).toNat) s = .next (operateMux ⟨dp, pf, ps⟩ s) := by
  rw [decodeMuxBundle_toNat]
  split
  · exact exec_pgnDerivePdu2 dp pf ps s
  · exact exec_pgnDerivePdu1 dp pf ps s

/-- Settles O15: the decoder's `pgn` and select are `muxFn` and `pdu2Sel` of its field outputs, as the standalone mux's
are. -/
theorem decoderMuxAgreesWithStandaloneMux : Obligations.DecoderMuxAgreesWithStandaloneMux := by
  intro x s
  exact ⟨_, rfl, _, exec_decodeMuxBundle .., rfl, rfl, rfl⟩

/-! ### Port widths (R5) -/

/-- A `can_id` port of at least 29 bits carries every bit that the decoder reads. -/
theorem decoderFn_throughIdPort {c : Config.Widths} (h : c.Admissible) (x : Nat) :
    decoderFn (throughIdPort c x) = decoderFn x := by
  obtain ⟨hid, -⟩ := h
  rw [← decoderFn_mod, throughIdPort, Nat.mod_mod_of_dvd x (Nat.pow_dvd_pow 2 hid), decoderFn_mod]

/-- Ports at their minimum widths or above carry every bit that the encoder reads. -/
theorem encoderFn_throughEncoderPorts {c : Config.Widths} (h : c.Admissible) (x : EncoderIn) :
    encoderFn (throughEncoderPorts c x) = encoderFn x := by
  obtain ⟨-, hprio, hpgn, hsa, hrsv⟩ := h
  simp (disch := omega) only [encoderFn, throughEncoderPorts, maskPriority, maskReserved, maskSourceAddress,
    pgnDataPage, pgnPduFormat, pgnPduSpecific, bits_mod_two_pow]

/-- Settles O31: the decoder's and the encoder's functions are the same on what the ports carry. -/
theorem resultsDoNotDependOnPortWidths : Obligations.ResultsDoNotDependOnPortWidths := by
  intro c hc s
  refine ⟨fun x => ?_, fun x => ?_⟩
  · obtain ⟨t, htexec, -, htout⟩ := exec_decode_shows x s
    obtain ⟨u, huexec, -, huout⟩ := exec_decode_shows (throughIdPort c x) s
    exact ⟨t, u, htexec, huexec, huout.trans ((decoderFn_throughIdPort hc x).trans htout.symm)⟩
  · obtain ⟨t, htexec, htout⟩ := exec_encode_shows x.priority x.pgn x.sourceAddress x.reserved s
    obtain ⟨u, huexec, huout⟩ := exec_encode_shows (throughEncoderPorts c x).priority (throughEncoderPorts c x).pgn
      (throughEncoderPorts c x).sourceAddress (throughEncoderPorts c x).reserved s
    exact ⟨t, u, htexec, huexec, huout.trans ((encoderFn_throughEncoderPorts hc x).trans htout.symm)⟩

end Sys2Proof.Machine
end
